-- ==== Sys2Proof/Word.lean ====
section
/-! DEFINITION. The two bit widths of the engine: a data Word and an instruction word (spec 00_scope.md R5, R7). -/

namespace Sys2Proof

/-- A Word: the 16-bit unsigned unit of registers, memory cells and stack entries (R5 `XLEN`, R7, R9). -/
abbrev Word := BitVec 16

/-- An instruction word: 24 bits, bit 23 the most significant (R5 `ILEN`, 30_encoding.md R50). -/
abbrev InstrWord := BitVec 24

end Sys2Proof
end

