-- ==== Sys2Proof/Config.lean ====
section
/-! DEFINITION. What the spec leaves open and the model leaves free.

The widths of 00_scope.md R5 are types in Word.lean. `PROG`, `IN` and `LEGAL_MODES` are data in State (log entry 2).
What is left is the content of an endless input. -/

namespace Sys2Proof

/-- FREE VALUE (log entry 3). The Word at position `pos` of the endless input sequence named `source`,
for the positions past the Words that State lists. The spec lets `IN` be any infinite sequence (R5), so this has no body. -/
opaque Config.laterInput (source pos : Nat) : Word

end Sys2Proof
end

