-- ==== Sys2Proof/Machine/Fields.lean ====
section
/-! DEFINITION. The names the fields of an instruction word stand for: opcodes, addressing modes, registers
(30_encoding.md R52, R53; 10_state.md R11). Their codes are in Decode.lean and Operands.lean. -/

namespace Sys2Proof

/-- The 28 opcodes in the order of 30_encoding.md R53, which is the order of their numbers 0x01 to 0x1C. -/
inductive Opcode
  | halt | load | store | add | sub | inc | dec
  | xor | and | or | not | shl | shr | nop
  | push | pop | cmp | jmp | jz | jnz | jc
  | jnc | ja | jae | jb | jbe | read | print
  deriving DecidableEq, Repr

/-- Every opcode, once. -/
def Opcode.all : List Opcode :=
  [.halt, .load, .store, .add, .sub, .inc, .dec] ++ [.xor, .and, .or, .not, .shl, .shr, .nop]
    ++ [.push, .pop, .cmp, .jmp, .jz, .jnz, .jc] ++ [.jnc, .ja, .jae, .jb, .jbe, .read, .print]

/-- Whether the opcode has an operand: all but HALT and NOP (R53, R57). -/
def Opcode.takesOperand (op : Opcode) : Bool :=
  op != .halt && op != .nop

/-- The four addressing modes (30_encoding.md R52). -/
inductive Mode
  | immediate | register | indirect | direct
  deriving DecidableEq, Repr

/-- The modes whose operand field is a register id: 01 and 10 (R52). -/
def Mode.namesRegister : Mode → Bool
  | .immediate => false
  | .register => true
  | .indirect => true
  | .direct => false

/-- The five general registers (10_state.md R11, R12). -/
inductive Reg
  | a | b | c | d | e
  deriving DecidableEq, Repr

end Sys2Proof
end

