-- ==== Sys2Proof/Syntax.lean ====
section
/-! DEFINITION. The instructions: one constructor per row of spec/opcode_table.json, each with the two other fields
of its word, the mode `m` and the operand field `k` (30_encoding.md R51; 40_fetch_decode_dispatch.md R88: the handler
receives `(m, k)`). -/

namespace Sys2Proof

/-- The 28 instructions. Every one keeps both fields, those that use no operand too (R51, R57),
so an instruction is its word but for the name. -/
inductive Instr
  /-- HALT: stop the run (R160). -/
  | halt (m : Mode) (k : Word)
  /-- LOAD: load the accumulator (R100). -/
  | load (m : Mode) (k : Word)
  /-- STORE: store the accumulator (R101). -/
  | store (m : Mode) (k : Word)
  /-- ADD: add to the accumulator (R113). -/
  | add (m : Mode) (k : Word)
  /-- SUB: subtract from the accumulator (R114). -/
  | sub (m : Mode) (k : Word)
  /-- INC: add one in place (R115). -/
  | inc (m : Mode) (k : Word)
  /-- DEC: subtract one in place (R116). -/
  | dec (m : Mode) (k : Word)
  /-- XOR: exclusive or into the accumulator (R117). -/
  | xor (m : Mode) (k : Word)
  /-- AND: and into the accumulator (R118). -/
  | and (m : Mode) (k : Word)
  /-- OR: or into the accumulator (R119). -/
  | or (m : Mode) (k : Word)
  /-- NOT: complement of the operand into the accumulator (R120). -/
  | not (m : Mode) (k : Word)
  /-- SHL: shift left by one in place (R121). -/
  | shl (m : Mode) (k : Word)
  /-- SHR: logical shift right by one in place (R122). -/
  | shr (m : Mode) (k : Word)
  /-- NOP: do nothing (R161). -/
  | nop (m : Mode) (k : Word)
  /-- PUSH: push a Word (R102). -/
  | push (m : Mode) (k : Word)
  /-- POP: pop a Word into a place (R103). -/
  | pop (m : Mode) (k : Word)
  /-- CMP: set the flags as SUB would (R123). -/
  | cmp (m : Mode) (k : Word)
  /-- JMP: jump (R141). -/
  | jmp (m : Mode) (k : Word)
  /-- JZ: jump if Zero, also written JE (R142). -/
  | jz (m : Mode) (k : Word)
  /-- JNZ: jump if not Zero, also written JNE (R143). -/
  | jnz (m : Mode) (k : Word)
  /-- JC: jump if Carry (R144). -/
  | jc (m : Mode) (k : Word)
  /-- JNC: jump if not Carry (R145). -/
  | jnc (m : Mode) (k : Word)
  /-- JA: jump if above (R146). -/
  | ja (m : Mode) (k : Word)
  /-- JAE: jump if above or equal (R147). -/
  | jae (m : Mode) (k : Word)
  /-- JB: jump if below (R148). -/
  | jb (m : Mode) (k : Word)
  /-- JBE: jump if below or equal (R149). -/
  | jbe (m : Mode) (k : Word)
  /-- READ: take one character from the input (R162). -/
  | read (m : Mode) (k : Word)
  /-- PRINT: append one character to the output (R163). -/
  | print (m : Mode) (k : Word)
  deriving DecidableEq, Repr

/-- The opcode of an instruction (R53). -/
def Instr.opcode : Instr → Opcode
  | .halt _ _ => .halt
  | .load _ _ => .load
  | .store _ _ => .store
  | .add _ _ => .add
  | .sub _ _ => .sub
  | .inc _ _ => .inc
  | .dec _ _ => .dec
  | .xor _ _ => .xor
  | .and _ _ => .and
  | .or _ _ => .or
  | .not _ _ => .not
  | .shl _ _ => .shl
  | .shr _ _ => .shr
  | .nop _ _ => .nop
  | .push _ _ => .push
  | .pop _ _ => .pop
  | .cmp _ _ => .cmp
  | .jmp _ _ => .jmp
  | .jz _ _ => .jz
  | .jnz _ _ => .jnz
  | .jc _ _ => .jc
  | .jnc _ _ => .jnc
  | .ja _ _ => .ja
  | .jae _ _ => .jae
  | .jb _ _ => .jb
  | .jbe _ _ => .jbe
  | .read _ _ => .read
  | .print _ _ => .print

/-- The mode field of an instruction (R51). -/
def Instr.mode : Instr → Mode
  | .halt m _ => m
  | .load m _ => m
  | .store m _ => m
  | .add m _ => m
  | .sub m _ => m
  | .inc m _ => m
  | .dec m _ => m
  | .xor m _ => m
  | .and m _ => m
  | .or m _ => m
  | .not m _ => m
  | .shl m _ => m
  | .shr m _ => m
  | .nop m _ => m
  | .push m _ => m
  | .pop m _ => m
  | .cmp m _ => m
  | .jmp m _ => m
  | .jz m _ => m
  | .jnz m _ => m
  | .jc m _ => m
  | .jnc m _ => m
  | .ja m _ => m
  | .jae m _ => m
  | .jb m _ => m
  | .jbe m _ => m
  | .read m _ => m
  | .print m _ => m

/-- The operand field of an instruction (R51). -/
def Instr.operand : Instr → Word
  | .halt _ k => k
  | .load _ k => k
  | .store _ k => k
  | .add _ k => k
  | .sub _ k => k
  | .inc _ k => k
  | .dec _ k => k
  | .xor _ k => k
  | .and _ k => k
  | .or _ k => k
  | .not _ k => k
  | .shl _ k => k
  | .shr _ k => k
  | .nop _ k => k
  | .push _ k => k
  | .pop _ k => k
  | .cmp _ k => k
  | .jmp _ k => k
  | .jz _ k => k
  | .jnz _ k => k
  | .jc _ k => k
  | .jnc _ k => k
  | .ja _ k => k
  | .jae _ k => k
  | .jb _ k => k
  | .jbe _ k => k
  | .read _ k => k
  | .print _ k => k

/-- The instruction with the three given fields (R51, R88). -/
def Instr.ofParts : Opcode → Mode → Word → Instr
  | .halt, m, k => .halt m k
  | .load, m, k => .load m k
  | .store, m, k => .store m k
  | .add, m, k => .add m k
  | .sub, m, k => .sub m k
  | .inc, m, k => .inc m k
  | .dec, m, k => .dec m k
  | .xor, m, k => .xor m k
  | .and, m, k => .and m k
  | .or, m, k => .or m k
  | .not, m, k => .not m k
  | .shl, m, k => .shl m k
  | .shr, m, k => .shr m k
  | .nop, m, k => .nop m k
  | .push, m, k => .push m k
  | .pop, m, k => .pop m k
  | .cmp, m, k => .cmp m k
  | .jmp, m, k => .jmp m k
  | .jz, m, k => .jz m k
  | .jnz, m, k => .jnz m k
  | .jc, m, k => .jc m k
  | .jnc, m, k => .jnc m k
  | .ja, m, k => .ja m k
  | .jae, m, k => .jae m k
  | .jb, m, k => .jb m k
  | .jbe, m, k => .jbe m k
  | .read, m, k => .read m k
  | .print, m, k => .print m k

end Sys2Proof
end

