-- ==== Sys2Proof/Decode.lean ====
section
/-! DEFINITION. Decoder and encoder, both over the one table of codes of 30_encoding.md R51 to R53. -/

namespace Sys2Proof

/-- The opcode numbers of R53 (the spec's decision D3: log entry 12). -/
def Opcode.code : Opcode → BitVec 6
  | .halt => 0x01
  | .load => 0x02
  | .store => 0x03
  | .add => 0x04
  | .sub => 0x05
  | .inc => 0x06
  | .dec => 0x07
  | .xor => 0x08
  | .and => 0x09
  | .or => 0x0A
  | .not => 0x0B
  | .shl => 0x0C
  | .shr => 0x0D
  | .nop => 0x0E
  | .push => 0x0F
  | .pop => 0x10
  | .cmp => 0x11
  | .jmp => 0x12
  | .jz => 0x13
  | .jnz => 0x14
  | .jc => 0x15
  | .jnc => 0x16
  | .ja => 0x17
  | .jae => 0x18
  | .jb => 0x19
  | .jbe => 0x1A
  | .read => 0x1B
  | .print => 0x1C

/-- The mode numbers of R52. -/
def Mode.code : Mode → BitVec 2
  | .immediate => 0
  | .register => 1
  | .indirect => 2
  | .direct => 3

/-- The opcode with the given number; none for 0x00 and 0x1D to 0x3F (R55). -/
def Opcode.ofCode (c : BitVec 6) : Option Opcode :=
  Opcode.all.find? fun op => op.code == c

/-- The mode with the given number: all four numbers name one (R52). -/
def Mode.ofCode (c : BitVec 2) : Mode :=
  if c = 0 then .immediate else if c = 1 then .register else if c = 2 then .indirect else .direct

/-- `op <- w[23:18]` (40_fetch_decode_dispatch.md R82, 30_encoding.md R51; D2: log entry 12). -/
def opcodeField (w : InstrWord) : BitVec 6 := w.extractLsb' 18 6

/-- `m <- w[17:16]` (R82, R51). -/
def modeField (w : InstrWord) : BitVec 2 := w.extractLsb' 16 2

/-- `k <- w[15:0]` (R82, R51). -/
def operandField (w : InstrWord) : Word := w.extractLsb' 0 16

/-- Why a word is no instruction. -/
inductive DecodeError
  /-- The opcode field is 0x00 or 0x1D to 0x3F (R55). -/
  | illegalOpcode
  deriving DecidableEq, Repr

/-- Decode (R82), with check 1 of R83. A mode outside the opcode's legal set and an unknown register id are left to
the instruction's meaning, which takes the fault (R83 checks 2 and 3; log entry 10). -/
def decode (w : InstrWord) : Except DecodeError Instr :=
  match Opcode.ofCode (opcodeField w) with
  | some op => .ok (Instr.ofParts op (Mode.ofCode (modeField w)) (operandField w))
  | none => .error .illegalOpcode

/-- The word of an instruction: opcode, mode and operand from the high bits down (R51, R67). -/
def encode (i : Instr) : InstrWord :=
  i.opcode.code ++ i.mode.code ++ i.operand

/-- The 24-bit word of a table row's `nbits` bits `w`, the bits above them zero (log entry 11). -/
def tableWord (nbits w : Nat) : InstrWord :=
  BitVec.ofNat 24 (w % 2 ^ nbits)

/-- What the decoder reads from an instruction of the opcode table. -/
def decodeTableWord (nbits w : Nat) : Option Instr :=
  (decode (tableWord nbits w)).toOption

end Sys2Proof
end

