-- ==== Sys2Proof/Machine/LegalModes.lean ====
section
/-! DEFINITION. The parameter `LEGAL_MODES` (00_scope.md R5): which modes each opcode may have. -/

namespace Sys2Proof

/-- One row of a legality table: an opcode and its legal modes. -/
structure LegalRow where
  opcode : Opcode
  modes : List Mode
  deriving DecidableEq, Repr

/-- A value of the parameter `LEGAL_MODES`, "function from opcode to a set of modes" (R5), as plain data.
An opcode's first row counts, and an opcode with no row has no legal mode (log entry 2). -/
abbrev LegalModes := List LegalRow

/-- `m` in `LEGAL_MODES(op)` (40_fetch_decode_dispatch.md R83 check 2). -/
def legalIn (table : LegalModes) (op : Opcode) (m : Mode) : Bool :=
  match table.find? (fun row => row.opcode == op) with
  | some row => row.modes.contains m
  | none => false

/-- All four modes. -/
def anyMode : List Mode := [.immediate, .register, .indirect, .direct]

/-- The modes that name a place: 01, 10, 11. -/
def placeModes : List Mode := [.register, .indirect, .direct]

/-- The default of 30_encoding.md R54 (the spec's decision D4: log entry 13). -/
def defaultModes : Opcode → List Mode
  | .halt => [.immediate]
  | .nop => [.immediate]
  | .load => anyMode
  | .add => anyMode
  | .sub => anyMode
  | .xor => anyMode
  | .and => anyMode
  | .or => anyMode
  | .not => anyMode
  | .cmp => anyMode
  | .push => anyMode
  | .print => anyMode
  | .inc => anyMode
  | .dec => anyMode
  | .store => placeModes
  | .pop => placeModes
  | .read => placeModes
  | .shl => placeModes
  | .shr => placeModes
  | .jmp => [.immediate]
  | .jz => [.immediate]
  | .jnz => [.immediate]
  | .jc => [.immediate]
  | .jnc => [.immediate]
  | .ja => [.immediate]
  | .jae => [.immediate]
  | .jb => [.immediate]
  | .jbe => [.immediate]

/-- The narrower alternative value of the parameter that 93_implementation_defined.md G3 lists. -/
def narrowModes : Opcode → List Mode
  | .push => [.register]
  | .pop => [.register]
  | .shl => [.register]
  | .shr => [.register]
  | op => defaultModes op

/-- The default table (R54). -/
def defaultLegalModes : LegalModes := Opcode.all.map fun op => ⟨op, defaultModes op⟩

/-- The table of G3. -/
def narrowLegalModes : LegalModes := Opcode.all.map fun op => ⟨op, narrowModes op⟩

end Sys2Proof
end

