-- ==== Sys2Proof/Machine/State.lean ====
section
/-! DEFINITION. The state of the engine (10_state.md R10, R29), the parameters of its step (00_scope.md R5), and the
ways a step can stop. -/

namespace Sys2Proof.Machine

/-- The five general registers `x[1]` to `x[5]` (R11, R12). -/
structure Regs where
  a : Word
  b : Word
  c : Word
  d : Word
  e : Word
  deriving DecidableEq, Repr

/-- The three flags `Z`, `CF`, `SF` (R20). -/
structure Flags where
  zero : Bool
  carry : Bool
  sign : Bool
  deriving DecidableEq, Repr

/-- The four fault kinds (60_exceptions.md R170). -/
inductive FaultKind
  | illegalOpcode | illegalMode | unknownRegister | stackUnderflow
  deriving DecidableEq, Repr

/-- The run state (R27): RUNNING, HALTED, or FAULTED with its record of kind, code, index and word (R176). -/
inductive RunState
  | running
  | halted
  | faulted (kind : FaultKind) (code : Nat) (index : Nat) (word : InstrWord)
  deriving DecidableEq, Repr

/-- The data memory: the cells that hold another Word than an unwritten cell reads as, by rising address
(R25; 20_memory.md R31; log entry 1). -/
abbrev Memory := List (Nat × Word)

/-- Whether `IN` ends after the listed Words or goes on for ever with the free Words of a numbered source
(R5 "finite or infinite sequence of Words"; log entry 3). -/
inductive InputTail
  | ended
  | unending (source : Nat)
  deriving DecidableEq, Repr

/-- The input sequence `IN` (R5, R28). -/
structure InputSource where
  given : List Word
  tail : InputTail
  deriving DecidableEq, Repr

/-- The parameters of the step, "each is fixed for one run" (R5; log entry 2). -/
structure Params where
  /-- `PROG`; its length is `PROG_LEN`. -/
  prog : List InstrWord
  /-- `IN`. -/
  input : InputSource
  /-- `LEGAL_MODES`. -/
  legal : LegalModes
  deriving DecidableEq, Repr

/-- The complete state (R10), and the parameters. -/
structure State where
  /-- `x[1]` to `x[5]`. -/
  regs : Regs
  /-- The program counter: an index into `PROG`, without a width (R17, R19). -/
  pc : Nat
  /-- `Z`, `CF`, `SF`. -/
  flags : Flags
  /-- `STK`, oldest first (R24). -/
  stack : List Word
  /-- `MEM` (R25). -/
  mem : Memory
  /-- The run state (R27). -/
  run : RunState
  /-- `OUT`, oldest first (R28). -/
  out : List Word
  /-- How many Words of `IN` have been consumed (R28). -/
  inpos : Nat
  /-- `PROG`, `IN` and `LEGAL_MODES`. -/
  par : Params
  deriving DecidableEq, Repr

/-- The reasons there is no next state. None of them is one of the engine's four faults: those are next states with
`run` FAULTED (R176). -/
inductive Fault
  /-- `step`, in a state whose run was ended by HALT: final, no step (40_fetch_decode_dispatch.md R90). Safe. -/
  | halted
  /-- `step`, RUNNING with `pc >= PROG_LEN`: final, no step (R90, the implicit halt). Safe. -/
  | leftProgram
  /-- `step`, in a FAULTED state: terminal, no step (R27, R176). Safe. -/
  | afterFault
  /-- READ, when `IN` is finite and used up: stuck, "has no step, now or later" (44_system_io.md R162). Safe. -/
  | inputExhausted
  /-- STORE, POP and READ in mode 00, which only a `LEGAL_MODES` other than the default can let through:
  `ResolveStore` is "not defined" there (R86; log entry 8). Safe. -/
  | storeToImmediate
  deriving DecidableEq, Repr

/-- The reasons for which the model gives an instruction no meaning. -/
inductive Refusal
  /-- `exec`'s arm of an instruction not modelled yet; none is left. Safe. -/
  | notModelled (mnemonic : String)
  deriving DecidableEq, Repr

/-- The outcome of an instruction or a step. -/
abbrev Result := Host.Outcome State Fault Refusal

/-- The state at the start of a run with the given parameters (R29; 70_reset_and_hazards.md R190, R193). -/
def State.start (par : Params) : State where
  regs := ⟨0, 0, 0, 0, 0⟩
  pc := 0
  flags := ⟨false, false, false⟩
  stack := []
  mem := []
  run := .running
  out := []
  inpos := 0
  par := par

/-- The parameters before the environment has loaded anything: no program, an endless input of unknown Words,
the default legality table (log entry 4). -/
def Params.unloaded : Params where
  prog := []
  input := ⟨[], .unending 0⟩
  legal := defaultLegalModes

/-- The machine right after reset (R190). -/
def State.reset : State := State.start Params.unloaded

end Sys2Proof.Machine
end

