-- ==== Sys2Proof/Machine/Flags.lean ====
section
/-! DEFINITION. The ALU primitives and every flag computation (42_alu.md R110 to R112, R121, R122). -/

namespace Sys2Proof.Machine

/-- `Add16` (R110): the low 16 bits of the sum as a natural number, and whether the sum exceeds 65535. -/
def add16 (a b : Word) : Word × Bool :=
  (BitVec.ofNat 16 (a.toNat + b.toNat), decide (65535 < a.toNat + b.toNat))

/-- `Neg16` (R111): bitwise complement, then add 1, modulo 65536. -/
def neg16 (v : Word) : Word := ~~~v + 1

/-- `(v * 2) mod 65536` (R121). -/
def shiftLeft1 (v : Word) : Word := BitVec.ofNat 16 (v.toNat * 2)

/-- `v div 2` (R122). -/
def shiftRight1 (v : Word) : Word := BitVec.ofNat 16 (v.toNat / 2)

/-- Bit 15 of a Word: what `SF` copies (R112) and SHL shifts out (R121). -/
def topBit (v : Word) : Bool := v.getLsbD 15

/-- `SetZS` (R112): `Z` and `SF` from the result, `CF` left alone. -/
def Flags.setZS (r : Word) (f : Flags) : Flags :=
  { f with zero := decide (r = 0), sign := topBit r }

/-- `CF <- c` (R20). -/
def Flags.setCarry (c : Bool) (f : Flags) : Flags :=
  { f with carry := c }

end Sys2Proof.Machine
end

