-- ==== Sys2Proof/Machine/Ops.lean ====
section
/-! DEFINITION. The named operations over registers, memory, stack, streams, program counter and run state, the entry
into a fault, and fetch. -/

namespace Sys2Proof.Machine

/-! Registers (10_state.md R12, R14; 20_memory.md R46). -/

/-- `x[i]`. -/
def State.reg (r : Reg) (s : State) : Word :=
  match r with
  | .a => s.regs.a
  | .b => s.regs.b
  | .c => s.regs.c
  | .d => s.regs.d
  | .e => s.regs.e

/-- The register file with one register written. -/
def Regs.set (r : Reg) (v : Word) (x : Regs) : Regs :=
  match r with
  | .a => { x with a := v }
  | .b => { x with b := v }
  | .c => { x with c := v }
  | .d => { x with d := v }
  | .e => { x with e := v }

/-- `x[i] <- v`. -/
def State.setReg (r : Reg) (v : Word) (s : State) : State :=
  { s with regs := s.regs.set r v }

/-! Flags (10_state.md R20). -/

/-- `CF <- c`. -/
def State.setCarry (c : Bool) (s : State) : State :=
  { s with flags := s.flags.setCarry c }

/-- `SetZS(r)` (42_alu.md R112). -/
def State.setZS (r : Word) (s : State) : State :=
  { s with flags := s.flags.setZS r }

/-! Data memory (20_memory.md R31 to R33). Keys are the addresses as numbers. -/

/-- What a cell never written reads as: the zero Word (R32). -/
def Memory.unwritten : Word := 0

/-- The cell at a numbered address. -/
def Memory.read (a : Nat) : Memory → Word
  | [] => Memory.unwritten
  | (b, v) :: rest => if b = a then v else Memory.read a rest

/-- The list without the cell at `a`. -/
def Memory.erase (a : Nat) (mem : Memory) : Memory :=
  mem.filter fun cell => cell.1 != a

/-- The list with a cell put before the first one of a higher address. -/
def Memory.insert (a : Nat) (v : Word) : Memory → Memory
  | [] => [(a, v)]
  | (b, x) :: rest => if a < b then (a, v) :: (b, x) :: rest else (b, x) :: Memory.insert a v rest

/-- The memory with one cell written, in canonical form: a cell that holds what an unwritten one reads as is not
listed (R33). -/
def Memory.write (a : Nat) (v : Word) (mem : Memory) : Memory :=
  if v = Memory.unwritten then Memory.erase a mem else Memory.insert a v (Memory.erase a mem)

/-- The canonical form: addresses strictly rising and within 16 bits, no cell equal to an unwritten one. -/
abbrev Memory.wf (mem : Memory) : Prop :=
  mem.Pairwise (fun c d => c.1 < d.1) ∧ ∀ c ∈ mem, c.1 < 65536 ∧ c.2 ≠ Memory.unwritten

/-- `MemRead(addr, 16)` (R32). -/
def State.memRead (addr : Word) (s : State) : Word :=
  Memory.read addr.toNat s.mem

/-- `MemWrite(addr, 16, v)` (R33). -/
def State.memWrite (addr v : Word) (s : State) : State :=
  { s with mem := Memory.write addr.toNat v s.mem }

/-! Stack (10_state.md R24). -/

/-- `Push(v)`. -/
def State.push (v : Word) (s : State) : State :=
  { s with stack := s.stack ++ [v] }

/-- `Pop()`: the newest Word and the state without it; none on an empty stack. -/
def State.pop (s : State) : Option (Word × State) :=
  match s.stack.getLast? with
  | some v => some (v, { s with stack := s.stack.dropLast })
  | none => none

/-! Character streams (10_state.md R28; 44_system_io.md R162 to R164). -/

/-- `IN[n]`, if the sequence has such an element. -/
def InputSource.wordAt (n : Nat) (src : InputSource) : Option Word :=
  match src.given[n]? with
  | some v => some v
  | none =>
    match src.tail with
    | .ended => none
    | .unending source => some (Config.laterInput source n)

/-- `In()`: the next Word and the state with it consumed; none when `IN` is used up. -/
def State.takeInput (s : State) : Option (Word × State) :=
  match s.par.input.wordAt s.inpos with
  | some v => some (v, { s with inpos := s.inpos + 1 })
  | none => none

/-- `Out(v)`. -/
def State.emit (v : Word) (s : State) : State :=
  { s with out := s.out ++ [v] }

/-! Program counter (10_state.md R18; 40_fetch_decode_dispatch.md R89; 43_control_transfer.md R140). -/

/-- `pc <- pc + 1`. -/
def State.advance (s : State) : State :=
  { s with pc := s.pc + 1 }

/-- `JumpTarget(k)`: the operand divided by 3, rounded down (R140). -/
def jumpTarget (k : Word) : Nat := k.toNat / 3

/-- `pc <- JumpTarget(k)`. -/
def State.jumpTo (k : Word) (s : State) : State :=
  { s with pc := jumpTarget k }

/-- The pc update of a jump whose predicate is `taken` (R89). -/
def State.jumpIf (taken : Bool) (k : Word) (s : State) : State :=
  if taken then s.jumpTo k else s.advance

/-! Run state (10_state.md R27; 60_exceptions.md R170, R176; 44_system_io.md R160). -/

/-- `run <- HALTED`. -/
def State.halt (s : State) : State :=
  { s with run := .halted }

/-- The code of a fault kind (R170). -/
def FaultKind.code : FaultKind → Nat
  | .illegalOpcode => 1
  | .illegalMode => 2
  | .unknownRegister => 3
  | .stackUnderflow => 4

/-- `raise F(pc, w)` (R176): `run` takes the fault record, with `pc` as the index, and nothing else changes.
No return from a fault exists (R177). -/
def State.raise (kind : FaultKind) (w : InstrWord) (s : State) : State :=
  { s with run := .faulted kind kind.code s.pc w }

/-! Fetch (40_fetch_decode_dispatch.md R80, R81, R90). -/

/-- The word the next step runs, or why there is no next step: a step is defined only when `run` is RUNNING and
`pc < PROG_LEN` (R80, R81; log entry 6). -/
def State.fetch (s : State) : Except Fault InstrWord :=
  match s.run with
  | .halted => .error .halted
  | .faulted _ _ _ _ => .error .afterFault
  | .running =>
    match s.par.prog[s.pc]? with
    | some w => .ok w
    | none => .error .leftProgram

/-- The step on a word that is no instruction: check 1 of R83. -/
def raiseUndecoded (e : DecodeError) (w : InstrWord) (s : State) : Result :=
  match e with
  | .illegalOpcode => .next (s.raise .illegalOpcode w)

/-- A program with `w` at index `n`; a shorter one is filled up with all-zero words (log entry 11). -/
def placeWord (n : Nat) (w : InstrWord) (prog : List InstrWord) : List InstrWord :=
  (prog ++ List.replicate (n + 1 - prog.length) 0).set n w

end Sys2Proof.Machine
end

