-- ==== Sys2Proof/Machine/Operands.lean ====
section
/-! DEFINITION. Operand resolution in every mode, and the checks that come before a handler
(40_fetch_decode_dispatch.md R83 to R87). -/

namespace Sys2Proof.Machine

/-- `RegIndex(k)` with the pairing of ids and names of 10_state.md R12 (D1: log entry 12); none outside 1 to 5 (R16, R84). -/
def regIndex (k : Word) : Option Reg :=
  if k = 1 then some .a
  else if k = 2 then some .b
  else if k = 3 then some .c
  else if k = 4 then some .d
  else if k = 5 then some .e
  else none

/-- What a mode and an operand field name, resolved once against the state (R87). -/
inductive Place
  | immediate (v : Word)
  | register (r : Reg)
  | cell (addr : Word)
  deriving DecidableEq, Repr

/-- The place `(m, k)` names (R85 to R87); none when `k` should be a register id and is not. -/
def placeOf (m : Mode) (k : Word) (s : State) : Option Place :=
  match m with
  | .immediate => some (.immediate k)
  | .register => (regIndex k).map .register
  | .indirect => (regIndex k).map fun r => .cell (s.reg r)
  | .direct => some (.cell k)

/-- The Word in a place (R85). -/
def Place.read (p : Place) (s : State) : Word :=
  match p with
  | .immediate v => v
  | .register r => s.reg r
  | .cell addr => s.memRead addr

/-- The state with a Word written to a place; "not defined" for an Immediate (R86). -/
def Place.write (p : Place) (v : Word) (s : State) : Option State :=
  match p with
  | .immediate _ => none
  | .register r => some (s.setReg r v)
  | .cell addr => some (s.memWrite addr v)

/-- `ResolveValue(m, k)` (R85). -/
def resolveValue (m : Mode) (k : Word) (s : State) : Option Word :=
  (placeOf m k s).map fun p => p.read s

/-- `ResolveStore(m, k, v)` (R86). -/
def resolveStore (m : Mode) (k : Word) (v : Word) (s : State) : Option State :=
  (placeOf m k s).bind fun p => p.write v s

/-- The write-back of INC, DEC, SHL and SHR: skipped when the operand is an Immediate
(42_alu.md R115, R116, R121, R122; log entry 9). -/
def Place.writeBack (p : Place) (v : Word) (s : State) : State :=
  (p.write v s).getD s

/-- `ResolveStore` and the pc update of STORE, POP and READ; a store to an Immediate has no effect the spec gives
(R86; log entry 8). -/
def storeAndAdvance (p : Place) (v : Word) (s : State) : Result :=
  match p.write v s with
  | some t => .next t.advance
  | none => .fault .storeToImmediate

/-- `m` in `LEGAL_MODES(op)` for the run's table (R83 check 2). -/
def State.legal (op : Opcode) (m : Mode) (s : State) : Bool :=
  legalIn s.par.legal op m

/-- Checks 2 and 3 of R83, in that order: the place the operand names, or the fault. Check 1 is the decoder's, check 4
is POP's own. -/
def checked (i : Instr) (s : State) : Except FaultKind Place :=
  if s.legal i.opcode i.mode then
    match placeOf i.mode i.operand s with
    | some p => .ok p
    | none => .error .unknownRegister
  else .error .illegalMode

/-- A handler behind the checks: the first check that fails raises its fault and the handler does nothing (R83, R176).
The word recorded is the instruction's own (log entry 10). -/
def admitted (i : Instr) (s : State) (handler : Place → Result) : Result :=
  match checked i s with
  | .ok p => handler p
  | .error kind => .next (s.raise kind (encode i))

end Sys2Proof.Machine
end

