-- ==== Sys2Proof/Machine/Alu.lean ====
section
/-! DEFINITION. ADD, SUB, INC, DEC, XOR, AND, OR, NOT, SHL, SHR, CMP (42_alu.md). Every input is read before anything
is written (R128). -/

namespace Sys2Proof.Machine

/-- `CF <- c; SetZS(r)`: the flags of an addition (R110, R112). -/
def State.setSumFlags (sum : Word × Bool) (s : State) : State :=
  (s.setCarry sum.2).setZS sum.1

/-- The common part of ADD and SUB: the sum goes to the accumulator and sets all three flags (R113, R114). -/
def State.accumulate (sum : Word × Bool) (s : State) : State :=
  ((s.setReg .a sum.1).setSumFlags sum).advance

/-- The common part of XOR, AND, OR and NOT: the result goes to the accumulator and sets `Z` and `SF`
(R117 to R120; `CF` unchanged, D11: log entry 15). -/
def State.setLogic (r : Word) (s : State) : State :=
  ((s.setReg .a r).setZS r).advance

/-- The common part of INC and DEC: the sum goes back to the operand's place, unless Immediate, and sets all three
flags (R115, R116, R87; D17: log entry 17). -/
def State.addInPlace (p : Place) (addend : Word) (s : State) : State :=
  ((p.writeBack (add16 (p.read s) addend).1 s).setSumFlags (add16 (p.read s) addend)).advance

/-- ADD (R113). -/
def execAdd (m : Mode) (k : Word) (s : State) : Result :=
  admitted (.add m k) s fun p => .next (s.accumulate (add16 (s.reg .a) (p.read s)))

/-- SUB (R114): the addition of the two's complement; `CF` is that addition's carry. -/
def execSub (m : Mode) (k : Word) (s : State) : Result :=
  admitted (.sub m k) s fun p => .next (s.accumulate (add16 (s.reg .a) (neg16 (p.read s))))

/-- INC (R115). -/
def execInc (m : Mode) (k : Word) (s : State) : Result :=
  admitted (.inc m k) s fun p => .next (s.addInPlace p 0x0001)

/-- DEC (R116): adds 0xFFFF. -/
def execDec (m : Mode) (k : Word) (s : State) : Result :=
  admitted (.dec m k) s fun p => .next (s.addInPlace p 0xFFFF)

/-- XOR (R117). -/
def execXor (m : Mode) (k : Word) (s : State) : Result :=
  admitted (.xor m k) s fun p => .next (s.setLogic (s.reg .a ^^^ p.read s))

/-- AND (R118). -/
def execAnd (m : Mode) (k : Word) (s : State) : Result :=
  admitted (.and m k) s fun p => .next (s.setLogic (s.reg .a &&& p.read s))

/-- OR (R119). -/
def execOr (m : Mode) (k : Word) (s : State) : Result :=
  admitted (.or m k) s fun p => .next (s.setLogic (s.reg .a ||| p.read s))

/-- NOT (R120): the complement of the operand, not of the accumulator. -/
def execNot (m : Mode) (k : Word) (s : State) : Result :=
  admitted (.not m k) s fun p => .next (s.setLogic (~~~(p.read s)))

/-- SHL (R121): bit 15 of the operand goes to `CF`. -/
def execShl (m : Mode) (k : Word) (s : State) : Result :=
  admitted (.shl m k) s fun p =>
    .next (((p.writeBack (shiftLeft1 (p.read s)) s).setCarry (topBit (p.read s))).setZS (shiftLeft1 (p.read s))).advance

/-- SHR (R122): `CF` unchanged. -/
def execShr (m : Mode) (k : Word) (s : State) : Result :=
  admitted (.shr m k) s fun p =>
    .next ((p.writeBack (shiftRight1 (p.read s)) s).setZS (shiftRight1 (p.read s))).advance

/-- CMP (R123): the flags of SUB, and no other effect. -/
def execCmp (m : Mode) (k : Word) (s : State) : Result :=
  admitted (.cmp m k) s fun p => .next (s.setSumFlags (add16 (s.reg .a) (neg16 (p.read s)))).advance

end Sys2Proof.Machine
end

