-- ==== Sys2Proof/Machine/Control.lean ====
section
/-! DEFINITION. JMP and the conditional jumps (43_control_transfer.md). The operand field itself is the address: no
value is resolved (R140, D13: log entry 19). The predicates of JA to JBE are the spec's decision D12 (log entry 16). -/

namespace Sys2Proof.Machine

/-- JMP (R141). -/
def execJmp (m : Mode) (k : Word) (s : State) : Result :=
  admitted (.jmp m k) s fun _ => .next (s.jumpTo k)

/-- JZ, also written JE (R142). -/
def execJz (m : Mode) (k : Word) (s : State) : Result :=
  admitted (.jz m k) s fun _ => .next (s.jumpIf s.flags.zero k)

/-- JNZ, also written JNE (R143). -/
def execJnz (m : Mode) (k : Word) (s : State) : Result :=
  admitted (.jnz m k) s fun _ => .next (s.jumpIf (!s.flags.zero) k)

/-- JC (R144). -/
def execJc (m : Mode) (k : Word) (s : State) : Result :=
  admitted (.jc m k) s fun _ => .next (s.jumpIf s.flags.carry k)

/-- JNC (R145). -/
def execJnc (m : Mode) (k : Word) (s : State) : Result :=
  admitted (.jnc m k) s fun _ => .next (s.jumpIf (!s.flags.carry) k)

/-- JA (R146): not `SF` and not `Z`. -/
def execJa (m : Mode) (k : Word) (s : State) : Result :=
  admitted (.ja m k) s fun _ => .next (s.jumpIf (!s.flags.sign && !s.flags.zero) k)

/-- JAE (R147): not `SF`, or `Z`. -/
def execJae (m : Mode) (k : Word) (s : State) : Result :=
  admitted (.jae m k) s fun _ => .next (s.jumpIf (!s.flags.sign || s.flags.zero) k)

/-- JB (R148): `SF` and not `Z`. -/
def execJb (m : Mode) (k : Word) (s : State) : Result :=
  admitted (.jb m k) s fun _ => .next (s.jumpIf (s.flags.sign && !s.flags.zero) k)

/-- JBE (R149): `SF` or `Z`. -/
def execJbe (m : Mode) (k : Word) (s : State) : Result :=
  admitted (.jbe m k) s fun _ => .next (s.jumpIf (s.flags.sign || s.flags.zero) k)

end Sys2Proof.Machine
end

