-- ==== Sys2Proof/Machine/DataMovement.lean ====
section
/-! DEFINITION. LOAD, STORE, PUSH, POP (41_data_movement.md; the spec's decisions D8, D9: log entry 14). -/

namespace Sys2Proof.Machine

/-- LOAD (R100): `x[1] <- ResolveValue(m, k)`; no flag. -/
def execLoad (m : Mode) (k : Word) (s : State) : Result :=
  admitted (.load m k) s fun p => .next (s.setReg .a (p.read s)).advance

/-- STORE (R101): `ResolveStore(m, k, x[1])`; no flag. -/
def execStore (m : Mode) (k : Word) (s : State) : Result :=
  admitted (.store m k) s fun p => storeAndAdvance p (s.reg .a) s

/-- PUSH (R102): `Push(ResolveValue(m, k))`; no flag. -/
def execPush (m : Mode) (k : Word) (s : State) : Result :=
  admitted (.push m k) s fun p => .next (s.push (p.read s)).advance

/-- POP (R103): `ResolveStore(m, k, Pop())`; check 4 of R83 after the mode and the register, before any effect; no flag. -/
def execPop (m : Mode) (k : Word) (s : State) : Result :=
  admitted (.pop m k) s fun p =>
    match s.pop with
    | some (v, t) => storeAndAdvance p v t
    | none => .next (s.raise .stackUnderflow (encode (.pop m k)))

end Sys2Proof.Machine
end

