-- ==== Sys2Proof/Machine/System.lean ====
section
/-! DEFINITION. HALT, NOP, READ, PRINT (44_system_io.md). None writes a flag. -/

namespace Sys2Proof.Machine

/-- HALT (R160): `pc <- pc + 1`, then `run <- HALTED`; the operand field is ignored (30_encoding.md R57). -/
def execHalt (m : Mode) (k : Word) (s : State) : Result :=
  admitted (.halt m k) s fun _ => .next s.advance.halt

/-- NOP (R161): `pc <- pc + 1`; the operand field is ignored (R57). -/
def execNop (m : Mode) (k : Word) (s : State) : Result :=
  admitted (.nop m k) s fun _ => .next s.advance

/-- READ (R162): `ResolveStore(m, k, In())`, after the checks; stuck when `IN` is used up (log entry 7). -/
def execRead (m : Mode) (k : Word) (s : State) : Result :=
  admitted (.read m k) s fun p =>
    match s.takeInput with
    | some (v, t) => storeAndAdvance p v t
    | none => .fault .inputExhausted

/-- PRINT (R163): `Out(ResolveValue(m, k))`, all 16 bits (D10, D19: log entries 14 and 20). -/
def execPrint (m : Mode) (k : Word) (s : State) : Result :=
  admitted (.print m k) s fun p => .next (s.emit (p.read s)).advance

end Sys2Proof.Machine
end

