-- ==== Sys2Proof/Machine/Dispatch.lean ====
section
/-! DEFINITION. Dispatch on the opcode alone, one arm per instruction (40_fetch_decode_dispatch.md R88). -/

namespace Sys2Proof.Machine

def exec (i : Instr) (s : State) : Host.Outcome State Fault Refusal :=
  match i with
  | .halt m k => Sys2Proof.Machine.execHalt m k s
  | .load m k => Sys2Proof.Machine.execLoad m k s
  | .store m k => Sys2Proof.Machine.execStore m k s
  | .add m k => Sys2Proof.Machine.execAdd m k s
  | .sub m k => Sys2Proof.Machine.execSub m k s
  | .inc m k => Sys2Proof.Machine.execInc m k s
  | .dec m k => Sys2Proof.Machine.execDec m k s
  | .xor m k => Sys2Proof.Machine.execXor m k s
  | .and m k => Sys2Proof.Machine.execAnd m k s
  | .or m k => Sys2Proof.Machine.execOr m k s
  | .not m k => Sys2Proof.Machine.execNot m k s
  | .shl m k => Sys2Proof.Machine.execShl m k s
  | .shr m k => Sys2Proof.Machine.execShr m k s
  | .nop m k => Sys2Proof.Machine.execNop m k s
  | .push m k => Sys2Proof.Machine.execPush m k s
  | .pop m k => Sys2Proof.Machine.execPop m k s
  | .cmp m k => Sys2Proof.Machine.execCmp m k s
  | .jmp m k => Sys2Proof.Machine.execJmp m k s
  | .jz m k => Sys2Proof.Machine.execJz m k s
  | .jnz m k => Sys2Proof.Machine.execJnz m k s
  | .jc m k => Sys2Proof.Machine.execJc m k s
  | .jnc m k => Sys2Proof.Machine.execJnc m k s
  | .ja m k => Sys2Proof.Machine.execJa m k s
  | .jae m k => Sys2Proof.Machine.execJae m k s
  | .jb m k => Sys2Proof.Machine.execJb m k s
  | .jbe m k => Sys2Proof.Machine.execJbe m k s
  | .read m k => Sys2Proof.Machine.execRead m k s
  | .print m k => Sys2Proof.Machine.execPrint m k s

end Sys2Proof.Machine
end

