-- ==== Sys2Proof/Machine/Step.lean ====
section
/-! DEFINITION. The one step of the engine (40_fetch_decode_dispatch.md R80). -/

namespace Sys2Proof.Machine

/-- Fetch, decode, then the instruction's checks and handler (R80 to R89). -/
def step (s : State) : Host.Outcome State Fault Refusal :=
  match s.fetch with
  | .error f => .fault f
  | .ok w =>
    match decode w with
    | .ok i => exec i s
    | .error e => raiseUndecoded e w s

/-- `s` with a table row's word placed in `PROG` at `pc`, and RUNNING, so that the next step runs it (log entry 11). -/
def State.withFetchWord (s : State) (nbits w : Nat) : State :=
  { s with
    run := .running
    par := { s.par with prog := placeWord s.pc (tableWord nbits w) s.par.prog } }

end Sys2Proof.Machine
end

