-- ==== Sys2Proof/Machine/Loader.lean ====
section
/-! DEFINITION. The text form a program is kept in outside the engine: one instruction a line, six hex digits a line
(30_encoding.md R60). No part of the step. -/

namespace Sys2Proof.Machine

/-- The value of a hex digit; lower-case letters are refused (log entry 22). -/
def hexDigit (c : Char) : Option Nat :=
  if '0'.toNat ≤ c.toNat ∧ c.toNat ≤ '9'.toNat then some (c.toNat - '0'.toNat)
  else if 'A'.toNat ≤ c.toNat ∧ c.toNat ≤ 'F'.toNat then some (c.toNat - 'A'.toNat + 10)
  else none

/-- The digit of a value below 16. -/
def hexChar (n : Nat) : Char :=
  if n < 10 then Char.ofNat ('0'.toNat + n) else Char.ofNat ('A'.toNat + (n - 10))

/-- The number a string of hex digits stands for, most significant first, after the digits already read. -/
def hexValueFrom (read : Nat) : List Char → Option Nat
  | [] => some read
  | c :: rest =>
    match hexDigit c with
    | some d => hexValueFrom (read * 16 + d) rest
    | none => none

/-- The number a string of hex digits stands for; none for the empty string. -/
def hexValue (text : List Char) : Option Nat :=
  if text.isEmpty then none else hexValueFrom 0 text

/-- One line of a program: exactly six hex digits, `w[23:20]` first (R60). -/
def loadLine (line : List Char) : Option InstrWord :=
  if line.length = 6 then (hexValue line).map (BitVec.ofNat 24) else none

/-- `PROG` from its lines: line `n` is `PROG[n]` (R60). -/
def loadProgram : List (List Char) → Option (List InstrWord)
  | [] => some []
  | line :: rest =>
    match loadLine line, loadProgram rest with
    | some w, some prog => some (w :: prog)
    | _, _ => none

/-- The six hex digits of a word (R60). -/
def lineOf (w : InstrWord) : List Char :=
  [20, 16, 12, 8, 4, 0].map fun shift => hexChar (w.toNat / 2 ^ shift % 16)

end Sys2Proof.Machine
end

