-- ==== Sys2Proof/Machine/Assembler.lean ====
section
/-! DEFINITION. The assembler's contract with the engine (30_encoding.md R61 to R69): mnemonics, operand shapes, label
addresses, words. Surrounding software, so no part of the step (00_scope.md R4). What the spec leaves open of it is
refused (93_implementation_defined.md U23; log entry 22). -/

namespace Sys2Proof.Machine

/-- A token: the characters between white space (R61). -/
abbrev Token := List Char

/-- The reasons assembly stops (R66). -/
inductive AsmError
  /-- More than one operand token on a line. -/
  | multipleOperands
  /-- A mnemonic that is none of the 30 spellings. -/
  | unknownMnemonic
  /-- An operand of none of the shapes, or one whose value is no Word. -/
  | unknownOperand
  /-- A mode outside the opcode's legal set. -/
  | illegalMode
  /-- An operand token after HALT or NOP, which have none (R53, R57; log entry 24). -/
  | operandNotTaken
  /-- A label declared twice, which the spec leaves open (U23). -/
  | duplicateLabel
  /-- A label with a lower-case letter: letter case is left open (U23; log entry 23). -/
  | lowerCaseLabel
  deriving DecidableEq, Repr

/-- A line cut at white space; `sofar` is the token being read, last character first. -/
def tokensFrom (sofar : Token) : List Char → List Token
  | [] => if sofar.isEmpty then [] else [sofar.reverse]
  | c :: rest =>
    if c.isWhitespace then
      (if sofar.isEmpty then tokensFrom [] rest else sofar.reverse :: tokensFrom [] rest)
    else tokensFrom (c :: sofar) rest

/-- The tokens of a line (R61). -/
def tokens (line : List Char) : List Token := tokensFrom [] line

/-- The spelling of an opcode in source text (R53, R65). -/
def mnemonic : Opcode → Token
  | .halt => "HALT".toList
  | .load => "LOAD".toList
  | .store => "STORE".toList
  | .add => "ADD".toList
  | .sub => "SUB".toList
  | .inc => "INC".toList
  | .dec => "DEC".toList
  | .xor => "XOR".toList
  | .and => "AND".toList
  | .or => "OR".toList
  | .not => "NOT".toList
  | .shl => "SHL".toList
  | .shr => "SHR".toList
  | .nop => "NOP".toList
  | .push => "PUSH".toList
  | .pop => "POP".toList
  | .cmp => "CMP".toList
  | .jmp => "JMP".toList
  | .jz => "JZ".toList
  | .jnz => "JNZ".toList
  | .jc => "JC".toList
  | .jnc => "JNC".toList
  | .ja => "JA".toList
  | .jae => "JAE".toList
  | .jb => "JB".toList
  | .jbe => "JBE".toList
  | .read => "READ".toList
  | .print => "PRINT".toList

/-- The opcode a mnemonic names: the 28 names, and JE and JNE for JZ and JNZ (R65). -/
def opcodeOf (name : Token) : Option Opcode :=
  if name = "JE".toList then some .jz
  else if name = "JNE".toList then some .jnz
  else Opcode.all.find? fun op => mnemonic op == name

/-- The id of a register name A to E (R64, 10_state.md R12). The "reserved stack register name" has no id (R64). -/
def registerId (name : Token) : Option Word :=
  if name = ['A'] then some 1
  else if name = ['B'] then some 2
  else if name = ['C'] then some 3
  else if name = ['D'] then some 4
  else if name = ['E'] then some 5
  else none

/-- A number as an operand field, if it is a Word. -/
def asWord (n : Nat) : Option Word :=
  if n < 65536 then some (BitVec.ofNat 16 n) else none

/-- A hex literal of one to four digits (R63; wider ones are refused, U23). -/
def hexLiteral (text : Token) : Option Word :=
  if text.length ≤ 4 then (hexValue text).bind asWord else none

/-- What stands between `[` and `]`, if the token is so bracketed. -/
def bracketed : Token → Option Token
  | '[' :: rest => if rest.getLast? = some ']' then some rest.dropLast else none
  | _ => none

/-- The character of a quoted single character. -/
def quoted : Token → Option Char
  | ['\'', c, '\''] => some c
  | _ => none

/-- The labels and their addresses (R62). -/
abbrev LabelTable := List (Token × Nat)

/-- The address of a label, matched character by character; no label of the table has a lower-case letter, so letter case
decides nothing (log entry 23). -/
def addressOf (labels : LabelTable) (name : Token) : Option Nat :=
  (labels.find? fun entry => entry.1 == name).map Prod.snd

/-- Shape `[` register name `]`, and the other shapes below: none if the token has not the shape; else its mode and operand
field, if it has one that is a Word (R63). -/
def registerIndirectShape (t : Token) : Option (Option (Mode × Word)) :=
  ((bracketed t).bind registerId).map fun id => some (.indirect, id)

/-- Shape `[` hex digits `]`. -/
def directShape (t : Token) : Option (Option (Mode × Word)) :=
  match bracketed t with
  | some inner => (hexValue inner).map fun _ => (hexLiteral inner).map fun k => (.direct, k)
  | none => none

/-- Shape register name. -/
def registerShape (t : Token) : Option (Option (Mode × Word)) :=
  (registerId t).map fun id => some (.register, id)

/-- Shape "a name in the label table". -/
def labelShape (labels : LabelTable) (t : Token) : Option (Option (Mode × Word)) :=
  (addressOf labels t).map fun addr => (asWord addr).map fun k => (.immediate, k)

/-- Shape quoted single character. -/
def quotedShape (t : Token) : Option (Option (Mode × Word)) :=
  (quoted t).map fun c => (asWord c.toNat).map fun k => (.immediate, k)

/-- Shape hex digits. -/
def hexShape (t : Token) : Option (Option (Mode × Word)) :=
  (hexValue t).map fun _ => (hexLiteral t).map fun k => (.immediate, k)

/-- The mode and operand field of an operand token: those of the first shape it has, in the order of R63 (D25). -/
def classify (labels : LabelTable) (t : Token) : Option (Mode × Word) :=
  ([registerIndirectShape t, directShape t, registerShape t, labelShape labels t, quotedShape t, hexShape t].findSome? id).join

/-- The label a line declares: "exactly one token ending in `:`", without the colon (R61, R62). -/
def labelOf : List Token → Option Token
  | [t] => if t.getLast? = some ':' then some t.dropLast else none
  | _ => none

/-- A label name with a letter `a` to `z`, which the model refuses (93_implementation_defined.md U23; log entry 23). -/
def hasLowerCase (name : Token) : Bool := name.any Char.isLower

/-- Pass 1 from an address on: a label takes the counter's value, every other non-empty line adds 3 (R62). -/
def pass1 (addr : Nat) : List (List Token) → Except AsmError LabelTable
  | [] => .ok []
  | line :: rest =>
    if line.isEmpty then pass1 addr rest
    else
      match labelOf line with
      | some name =>
        if hasLowerCase name then .error .lowerCaseLabel
        else
          match pass1 addr rest with
          | .ok labels =>
            if (addressOf labels name).isSome then .error .duplicateLabel else .ok ((name, addr) :: labels)
          | .error e => .error e
      | none => pass1 (addr + 3) rest

/-- The instruction of an opcode and an operand, if the run's legality table, the one the engine checks, gives the opcode the
mode (R66, R67). -/
def assembleAs (legal : LegalModes) (op : Opcode) (operand : Mode × Word) : Except AsmError InstrWord :=
  if legalIn legal op operand.1 then .ok (encode (Instr.ofParts op operand.1 operand.2))
  else .error .illegalMode

/-- The word of an instruction line; no operand token gives mode 00 and operand 0 (R67). HALT and NOP take no operand token
(R53, R57; log entry 24). -/
def assembleLine (legal : LegalModes) (labels : LabelTable) : List Token → Except AsmError InstrWord
  | [] => .error .unknownMnemonic
  | [name] =>
    match opcodeOf name with
    | some op => assembleAs legal op (.immediate, 0)
    | none => .error .unknownMnemonic
  | [name, t] =>
    match opcodeOf name with
    | some op =>
      if op.takesOperand then
        match classify labels t with
        | some operand => assembleAs legal op operand
        | none => .error .unknownOperand
      else .error .operandNotTaken
    | none => .error .unknownMnemonic
  | _ :: _ :: _ :: _ => .error .multipleOperands

/-- Pass 2: one word per instruction line, in source order (R67). -/
def pass2 (legal : LegalModes) (labels : LabelTable) : List (List Token) → Except AsmError (List InstrWord)
  | [] => .ok []
  | line :: rest =>
    if line.isEmpty || (labelOf line).isSome then pass2 legal labels rest
    else
      match assembleLine legal labels line with
      | .error e => .error e
      | .ok w =>
        match pass2 legal labels rest with
        | .ok prog => .ok (w :: prog)
        | .error e => .error e

/-- The two passes over source lines, with the legality table of the engine the words are for (R62, R66, R67). -/
def assemble (legal : LegalModes) (source : List (List Char)) : Except AsmError (List InstrWord) :=
  match pass1 0 (source.map tokens) with
  | .ok labels => pass2 legal labels (source.map tokens)
  | .error e => .error e

end Sys2Proof.Machine
end

