-- ==== Sys2Proof/WellFormed.lean ====
section
/-! DEFINITION. Which instructions are well formed: those an assembler may emit (30_encoding.md R66, R69).
The engine runs the others too, to a fault (60_exceptions.md R172, R173), so these checks are no part of the step. -/

namespace Sys2Proof

/-- The mode is one the table gives the opcode (R54, R56). -/
def Instr.modeLegal (table : LegalModes) (i : Instr) : Bool :=
  legalIn table i.opcode i.mode

/-- In modes 01 and 10 the operand field is a register id, 1 to 5 (10_state.md R12, R16). -/
def Instr.registerNamed (i : Instr) : Bool :=
  !i.mode.namesRegister || (decide (1 ≤ i.operand.toNat) && decide (i.operand.toNat ≤ 5))

/-- HALT and NOP have a zero operand field, as an assembler encodes them (R57, R69). The engine ignores it. -/
def Instr.operandUsed (i : Instr) : Bool :=
  i.opcode.takesOperand || i.operand == 0

/-- An instruction well formed under a legality table passes the three checks. -/
def Instr.wfUnder (table : LegalModes) (i : Instr) : Bool :=
  i.modeLegal table && i.registerNamed && i.operandUsed

/-- A well-formed instruction: under the default table. -/
def Instr.wf (i : Instr) : Bool :=
  i.wfUnder defaultLegalModes

end Sys2Proof
end

