-- ==== Sys2Proof/Safety.lean ====
section
/-! DEFINITION. The terms claims use: when an instruction passes its checks, the faults a rule lists, the invariant
of the machine, and how a run ends. -/

namespace Sys2Proof.Machine

/-- An instruction that passes checks 1 to 3 of 40_fetch_decode_dispatch.md R83 in a state: its mode is in the run's
`LEGAL_MODES`, and in modes 01 and 10 its operand field is a register id. -/
abbrev Executable (i : Instr) (s : State) : Prop :=
  s.legal i.opcode i.mode = true ∧ i.registerNamed = true

/-- The next state of an outcome. -/
def nextState? (o : Result) : Option State :=
  match o with
  | .next t => some t
  | .fault _ => none
  | .refused _ => none

/-- The fault kind of a run state, if it is FAULTED. -/
def RunState.kind? (r : RunState) : Option FaultKind :=
  match r with
  | .running => none
  | .halted => none
  | .faulted kind _ _ _ => some kind

/-- With the default table, an instruction raises no fault kind but those listed: the "Faults" line of a rule. -/
abbrev raisesOnly (i : Instr) (allowed : List FaultKind) : Prop :=
  ∀ s t : State, s.par.legal = defaultLegalModes → s.run.kind? = none → exec i s = .next t →
    ∀ kind, t.run.kind? = some kind → kind ∈ allowed

/-- With the default table, an instruction raises IllegalMode in every state, and changes nothing else. -/
abbrev alwaysIllegalMode (i : Instr) : Prop :=
  ∀ s : State, s.par.legal = defaultLegalModes →
    exec i s = .next { s with run := .faulted .illegalMode 2 s.pc (encode i) }

/-- The state after the write-back of an in-place instruction: `if m != 00: ResolveStore(m, k, r)`
(42_alu.md R115). -/
def writtenBack (m : Mode) (k r : Word) (s : State) : Option State :=
  if m = .immediate then some s else resolveStore m k r s

/-- The instructions of a list run one after the other, wherever they stand; none if one of them has no next state. -/
def execAll : List Instr → State → Option State
  | [], s => some s
  | i :: rest, s => (nextState? (exec i s)).bind (execAll rest)

/-- A legality table that keeps mode 00 from STORE, POP and READ, which "a model with another `LEGAL_MODES` must"
(93_implementation_defined.md U5). -/
abbrev storesNamePlaces (table : LegalModes) : Prop :=
  legalIn table .store .immediate = false ∧ legalIn table .pop .immediate = false ∧
    legalIn table .read .immediate = false

/-- The invariant of the machine. -/
structure Inv (s : State) : Prop where
  /-- The memory list is in its canonical form (log entry 1). -/
  memCanonical : Memory.wf s.mem
  /-- `Z` and `SF` are never both true (10_state.md R23). -/
  zeroSignExclusive : ¬(s.flags.zero = true ∧ s.flags.sign = true)
  /-- `pc` never passes `max(PROG_LEN, 21845)` (10_state.md R19). -/
  pcBounded : s.pc ≤ max s.par.prog.length 21845
  /-- A fault record has the kind's code, the index of the faulting instruction, where `pc` stays, and its word
  (60_exceptions.md R170, R176). -/
  faultRecord : ∀ kind code index word, s.run = .faulted kind code index word →
    code = kind.code ∧ index = s.pc ∧ s.par.prog[index]? = some word
  /-- `inpos` counts Words of `IN`: none has been taken that is not there (10_state.md R28). -/
  inputCounted : s.par.input.tail = .ended → s.inpos ≤ s.par.input.given.length
  /-- Mode 00 is kept from the storing instructions (U5). -/
  tableSound : storesNamePlaces s.par.legal

/-- A final state (40_fetch_decode_dispatch.md R90). -/
abbrev Final (s : State) : Prop :=
  s.run = .halted ∨ (s.run = .running ∧ s.par.prog.length ≤ s.pc)

/-- The stuck state (44_system_io.md R162): RUNNING inside the program at a READ that passes its checks, with `IN` used
up. -/
def Stuck (s : State) : Prop :=
  s.run = .running ∧ s.par.input.wordAt s.inpos = none ∧
    ∃ w m k, s.par.prog[s.pc]? = some w ∧ decode w = .ok (.read m k) ∧ Executable (.read m k) s

/-- `t` is reached from `s` in `n` steps. -/
def RunsTo (s : State) (n : Nat) (t : State) : Prop :=
  Host.Core.run Sys2Proof.core n s = .next t

/-- The same state with another table for `LEGAL_MODES`. -/
def State.withLegal (table : LegalModes) (s : State) : State :=
  { s with par := { s.par with legal := table } }

end Sys2Proof.Machine
end

