-- ==== Sys2Proof/Certificates/Slice0/Obligations.lean ====
section
/-! DEFINITION. The statements for the provers. "D<n>" is a decision of spec/92_eei_decisions.md, the spec's own choice;
a statement that rests on one says so. -/

open Sys2Proof Sys2Proof.Machine

/-! ### Encoding and decoding -/

/-- Decode and encode agree on every instruction with every mode and operand (30_encoding.md sections 1 and 2; D2, D3). -/
def Obligations.DecodeOfEncodeIsTheInstruction : Prop :=
  ∀ i : Instr, decode (encode i) = .ok i

/-- A word that decodes is the word of what it decodes to: no two words share a meaning (30_encoding.md section 1). -/
def Obligations.EncodeOfDecodeIsTheWord : Prop :=
  ∀ (w : InstrWord) (i : Instr), decode w = .ok i → encode i = w

/-- The word of each of the 28 instructions as a number, from the opcode table's match column, the mode number and the
operand (30_encoding.md sections 1 and 2; D2, D3). -/
def Obligations.WordOfEveryInstruction : Prop :=
  ∀ (m : Mode) (k : Word) (row : Instr × Nat),
    row ∈ [(Instr.halt m k, 0x040000), (.load m k, 0x080000), (.store m k, 0x0C0000), (.add m k, 0x100000),
        (.sub m k, 0x140000), (.inc m k, 0x180000), (.dec m k, 0x1C0000)]
      ++ [(.xor m k, 0x200000), (.and m k, 0x240000), (.or m k, 0x280000), (.not m k, 0x2C0000),
        (.shl m k, 0x300000), (.shr m k, 0x340000), (.nop m k, 0x380000)]
      ++ [(.push m k, 0x3C0000), (.pop m k, 0x400000), (.cmp m k, 0x440000), (.jmp m k, 0x480000),
        (.jz m k, 0x4C0000), (.jnz m k, 0x500000), (.jc m k, 0x540000)]
      ++ [(.jnc m k, 0x580000), (.ja m k, 0x5C0000), (.jae m k, 0x600000), (.jb m k, 0x640000),
        (.jbe m k, 0x680000), (.read m k, 0x6C0000), (.print m k, 0x700000)] →
    ∃ n, (m, n) ∈ [(Mode.immediate, 0), (.register, 1), (.indirect, 2), (.direct, 3)] ∧
      (encode row.1).toNat = row.2 + n * 0x10000 + k.toNat

/-- Words written out from the encodings of 30_encoding.md decode to the instructions they stand for, one or two a family. -/
def Obligations.WrittenOutWordsDecode : Prop :=
  decode 0b000010_00_0000000000000101 = .ok (.load .immediate 0x0005) ∧
  decode 0b000011_11_0000000100000000 = .ok (.store .direct 0x0100) ∧
  decode 0b010000_01_0000000000000011 = .ok (.pop .register 0x0003) ∧
  decode 0b000100_10_0000000000000010 = .ok (.add .indirect 0x0002) ∧
  decode 0b001100_01_0000000000000010 = .ok (.shl .register 0x0002) ∧
  decode 0b010011_00_0000000000000110 = .ok (.jz .immediate 0x0006) ∧
  decode 0b011010_00_1111111111111111 = .ok (.jbe .immediate 0xFFFF) ∧
  decode 0b000001_00_0001001000110100 = .ok (.halt .immediate 0x1234) ∧
  decode 0b011100_01_0000000000000001 = .ok (.print .register 0x0001)

/-- 30_encoding.md R55 and 60_exceptions.md R171: a fetched word raises IllegalOpcode exactly when its opcode field is 0x00 or
0x1D to 0x3F, whatever its other fields hold. -/
def Obligations.IllegalOpcodeExactlyOnUnmappedOpcodes : Prop :=
  ∀ (s : State) (w : InstrWord), s.run = .running → s.par.prog[s.pc]? = some w →
    ((∃ t, step s = .next t ∧ t.run.kind? = some .illegalOpcode) ↔
      (w.toNat / 2 ^ 18 = 0x00 ∨ 0x1D ≤ w.toNat / 2 ^ 18))

/-! ### The step -/

/-- A step fetches the word at `pc`, decodes it and runs the instruction (40_fetch_decode_dispatch.md section 1). -/
def Obligations.StepRunsTheDecodedInstruction : Prop :=
  ∀ (s : State) (w : InstrWord) (i : Instr),
    s.run = .running → s.par.prog[s.pc]? = some w → decode w = .ok i → step s = exec i s

/-- A word that the host places with `withFetchWord` is the one the next step runs (log entry 11), from any state. -/
def Obligations.PlacedWordIsTheNextInstruction : Prop :=
  ∀ (s : State) (w : Nat) (i : Instr), decode (BitVec.ofNat 24 w) = .ok i →
    step (s.withFetchWord 24 w) = exec i (s.withFetchWord 24 w)

/-- The states that have no step, each stopped under a name of its own: the final and the terminal states, and the READ
whose input is used up (40_fetch_decode_dispatch.md section 4, 44_system_io.md READ; D6, D18, D21; log entries 6 and 7). -/
def Obligations.StatesWithoutAStep : Prop :=
  ∀ s : State,
    (s.run = .halted → step s = .fault .halted) ∧
    (s.run = .running → s.par.prog.length ≤ s.pc → step s = .fault .leftProgram) ∧
    (∀ kind code index word, s.run = .faulted kind code index word → step s = .fault .afterFault) ∧
    (Stuck s → step s = .fault .inputExhausted) ∧
    (Final s ↔ step s = .fault .halted ∨ step s = .fault .leftProgram)

/-- Progress: from every state that meets the invariant, RUNNING inside the program, the engine takes a step, unless it is stuck
in a READ whose input is used up; and no state at all is refused (40_fetch_decode_dispatch.md section 1,
70_reset_and_hazards.md section 5; D18). -/
def Obligations.RunningProgramStepsUnlessStuckInRead : Prop :=
  (∀ s : State, Inv s → s.run = .running → s.pc < s.par.prog.length →
    (∃ t, step s = .next t) ∨ (Stuck s ∧ step s = .fault .inputExhausted)) ∧
  ∀ (s : State) (r : Refusal), step s ≠ .refused r

/-! ### Checks and faults -/

/-- The checks in their order, each with its fault and nothing else changed: the mode, then the register id, then for POP the
stack (40_fetch_decode_dispatch.md section 1, 60_exceptions.md section 1; D5, D6, D7, D30). -/
def Obligations.ChecksRaiseTheirFaultsInOrder : Prop :=
  ∀ s : State,
    (∀ i : Instr, s.legal i.opcode i.mode = false →
      exec i s = .next { s with run := .faulted .illegalMode 2 s.pc (encode i) }) ∧
    (∀ i : Instr, s.legal i.opcode i.mode = true → i.registerNamed = false →
      exec i s = .next { s with run := .faulted .unknownRegister 3 s.pc (encode i) }) ∧
    (∀ m k, Executable (.pop m k) s → s.stack = [] →
      exec (.pop m k) s = .next { s with run := .faulted .stackUnderflow 4 s.pc (encode (.pop m k)) })

/-- A step into FAULTED records the kind, its code, the index and the fetched word, and changes nothing else
(60_exceptions.md section 1; D6). -/
def Obligations.StepIntoAFaultChangesOnlyTheRunState : Prop :=
  ∀ (s t : State) (kind : FaultKind) (code index : Nat) (word : InstrWord),
    step s = .next t → t.run = .faulted kind code index word →
    t = { s with run := .faulted kind code index word } ∧
    (kind, code) ∈ [(FaultKind.illegalOpcode, 1), (.illegalMode, 2), (.unknownRegister, 3), (.stackUnderflow, 4)] ∧
    index = s.pc ∧ s.par.prog[s.pc]? = some word

/-- With the default table, which opcode and mode pairs raise IllegalMode: HALT, NOP and the jumps outside mode 00, and STORE,
POP, READ, SHL and SHR in mode 00, and no other (30_encoding.md section 2; D4, D5). -/
def Obligations.IllegalModePairsOfTheDefaultTable : Prop :=
  ∀ (i : Instr) (s : State), s.par.legal = defaultLegalModes → s.run.kind? = none →
    ((∃ t, exec i s = .next t ∧ t.run.kind? = some .illegalMode) ↔
      (i.opcode ∈ [.halt, .nop, .jmp, .jz, .jnz, .jc, .jnc, .ja, .jae, .jb, .jbe] ∧ i.mode ≠ .immediate) ∨
      (i.opcode ∈ [.store, .pop, .read, .shl, .shr] ∧ i.mode = .immediate))

/-! ### Operand resolution -/

/-- 40_fetch_decode_dispatch.md R85: the four modes of `ResolveValue`, a cell never written reading as zero. -/
def Obligations.ResolveValueByMode : Prop :=
  ∀ (s : State) (k : Word),
    resolveValue .immediate k s = some k ∧
    resolveValue .direct k s = some (s.memRead k) ∧
    (∀ addr : Word, (∀ cell ∈ s.mem, cell.1 ≠ addr.toNat) → s.memRead addr = 0) ∧
    ∀ r, regIndex k = some r →
      resolveValue .register k s = some (s.reg r) ∧
      resolveValue .indirect k s = some (s.memRead (s.reg r))

/-- 40_fetch_decode_dispatch.md R86: what `ResolveStore` writes in each mode and what it leaves alone; it is not defined in
mode 00, and with the default table no instruction asks for that. -/
def Obligations.ResolveStoreByMode : Prop :=
  ∀ (s : State) (k v : Word),
    (∀ r, regIndex k = some r → ∃ t, resolveStore .register k v s = some t ∧ t = { s with regs := t.regs } ∧
      t.reg r = v ∧ ∀ other, other ≠ r → t.reg other = s.reg other) ∧
    (∀ r, regIndex k = some r → ∃ t, resolveStore .indirect k v s = some t ∧ t = { s with mem := t.mem } ∧
      t.memRead (s.reg r) = v ∧ ∀ other, other ≠ s.reg r → t.memRead other = s.memRead other) ∧
    (∃ t, resolveStore .direct k v s = some t ∧ t = { s with mem := t.mem } ∧
      t.memRead k = v ∧ ∀ other, other ≠ k → t.memRead other = s.memRead other) ∧
    resolveStore .immediate k v s = none ∧
    (s.par.legal = defaultLegalModes → ∀ i, exec i s ≠ .fault .storeToImmediate)

/-- The ids 1 to 5 name A to E and no other operand field names a register (10_state.md section 2; D1, D22). -/
def Obligations.RegisterIdsNameAToE : Prop :=
  ∀ (k : Word) (r : Reg),
    regIndex k = some r ↔ (k.toNat, r) ∈ [(1, Reg.a), (2, .b), (3, .c), (4, .d), (5, .e)]

/-- In every mode that can store, a Word stored through `(m, k)` is what `(m, k)` reads afterwards: both resolve one place
(40_fetch_decode_dispatch.md section 2; D24). -/
def Obligations.StoredOperandIsReadBack : Prop :=
  ∀ (m : Mode) (k v : Word) (s t : State), resolveStore m k v s = some t → resolveValue m k t = some v

/-- Memories in canonical form that read alike at every address are equal, so no one can observe whether the sparse map
lists a zero (20_memory.md section 2; log entry 1). -/
def Obligations.MemoriesThatReadAlikeAreEqual : Prop :=
  ∀ mem other : Memory, mem.wf → other.wf →
    (∀ a : Nat, Memory.read a mem = Memory.read a other) → mem = other

/-! ### Data movement -/

/-- LOAD in every mode: A takes the operand's value, `pc` moves on, nothing else changes
(41_data_movement.md LOAD; D8). -/
def Obligations.LoadTakesTheOperand : Prop :=
  ∀ (m : Mode) (k : Word) (s : State), Executable (.load m k) s →
    ∃ v, resolveValue m k s = some v ∧
      exec (.load m k) s = .next { s with regs := { s.regs with a := v }, pc := s.pc + 1 }

/-- STORE in every mode that names a place: A goes there (41_data_movement.md STORE; D8). -/
def Obligations.StoreWritesTheAccumulator : Prop :=
  ∀ (m : Mode) (k : Word) (s : State), m ≠ .immediate → Executable (.store m k) s →
    ∃ t, resolveStore m k s.regs.a s = some t ∧ exec (.store m k) s = .next { t with pc := s.pc + 1 }

/-- PUSH in every mode: the operand's value becomes the newest stack entry (41_data_movement.md PUSH; D9). -/
def Obligations.PushAppendsTheOperand : Prop :=
  ∀ (m : Mode) (k : Word) (s : State), Executable (.push m k) s →
    ∃ v, resolveValue m k s = some v ∧
      exec (.push m k) s = .next { s with stack := s.stack ++ [v], pc := s.pc + 1 }

/-- POP in every mode that names a place: the newest stack entry goes there and leaves the stack
(41_data_movement.md POP; D9). -/
def Obligations.PopStoresTheNewestEntry : Prop :=
  ∀ (m : Mode) (k : Word) (s : State) (rest : List Word) (v : Word), m ≠ .immediate → Executable (.pop m k) s →
    s.stack = rest ++ [v] →
    ∃ t, resolveStore m k v { s with stack := rest } = some t ∧ exec (.pop m k) s = .next { t with pc := s.pc + 1 }

/-- A table other than the default can let STORE, POP and READ through in mode 00; the model stops there by name, because
`ResolveStore` is not defined (log entry 8). -/
def Obligations.StoringToAnImmediateStops : Prop :=
  ∀ (k : Word) (s : State),
    (Executable (.store .immediate k) s → exec (.store .immediate k) s = .fault .storeToImmediate) ∧
    (Executable (.pop .immediate k) s → s.stack ≠ [] → exec (.pop .immediate k) s = .fault .storeToImmediate) ∧
    (Executable (.read .immediate k) s → s.par.input.wordAt s.inpos ≠ none →
      exec (.read .immediate k) s = .fault .storeToImmediate)

/-! ### ALU -/

/-- 42_alu.md R113: ADD in every mode, its word, its result, its three flags, its frame and its faults. -/
def Obligations.AddSumsIntoTheAccumulator : Prop :=
  ∀ (m : Mode) (k : Word),
    (encode (.add m k)).toNat = 0x100000 + m.code.toNat * 0x10000 + k.toNat ∧
    raisesOnly (.add m k) [.unknownRegister] ∧
    ∀ s : State, Executable (.add m k) s →
      ∃ v, resolveValue m k s = some v ∧
        exec (.add m k) s = .next { s with
          regs := { s.regs with a := BitVec.ofNat 16 ((s.regs.a.toNat + v.toNat) % 65536) }
          flags := {
            zero := decide ((s.regs.a.toNat + v.toNat) % 65536 = 0)
            carry := decide (s.regs.a.toNat + v.toNat > 65535)
            sign := decide ((s.regs.a.toNat + v.toNat) % 65536 ≥ 32768) }
          pc := s.pc + 1 }

/-- SUB in every mode, its word, its result, its three flags, its frame and its faults. `CF` is in the
closed form the spec derives: not a borrow, and false when the operand is 0 (42_alu.md SUB; D16: log entry 17). -/
def Obligations.SubAddsTheComplement : Prop :=
  ∀ (m : Mode) (k : Word),
    (encode (.sub m k)).toNat = 0x140000 + m.code.toNat * 0x10000 + k.toNat ∧
    raisesOnly (.sub m k) [.unknownRegister] ∧
    ∀ s : State, Executable (.sub m k) s →
      ∃ v, resolveValue m k s = some v ∧
        exec (.sub m k) s = .next { s with
          regs := { s.regs with a := BitVec.ofNat 16 ((s.regs.a.toNat + 65536 - v.toNat) % 65536) }
          flags := {
            zero := decide ((s.regs.a.toNat + 65536 - v.toNat) % 65536 = 0)
            carry := decide (v.toNat ≠ 0 ∧ s.regs.a.toNat ≥ v.toNat)
            sign := decide ((s.regs.a.toNat + 65536 - v.toNat) % 65536 ≥ 32768) }
          pc := s.pc + 1 }

/-- CMP in every mode, its word and its faults: it writes the three flags as SUB does and nothing else
(42_alu.md CMP; D16, D27: log entry 17). -/
def Obligations.CmpSetsFlagsOnly : Prop :=
  ∀ (m : Mode) (k : Word),
    (encode (.cmp m k)).toNat = 0x440000 + m.code.toNat * 0x10000 + k.toNat ∧
    raisesOnly (.cmp m k) [.unknownRegister] ∧
    ∀ s : State, Executable (.cmp m k) s →
      ∃ v, resolveValue m k s = some v ∧
        exec (.cmp m k) s = .next { s with
          flags := {
            zero := decide (s.regs.a = v)
            carry := decide (v.toNat ≠ 0 ∧ s.regs.a.toNat ≥ v.toNat)
            sign := decide ((s.regs.a.toNat + 65536 - v.toNat) % 65536 ≥ 32768) }
          pc := s.pc + 1 }

/-- INC and DEC in every mode: the operand's place takes the value one up or one down, unless the mode is Immediate, and the flags
are those of the addition of 1 or 0xFFFF (42_alu.md INC and DEC; D17). -/
def Obligations.IncAndDecChangeTheOperandByOne : Prop :=
  ∀ (m : Mode) (k : Word) (s : State),
    (Executable (.inc m k) s →
      ∃ v t, resolveValue m k s = some v ∧
        writtenBack m k (BitVec.ofNat 16 ((v.toNat + 1) % 65536)) s = some t ∧
        exec (.inc m k) s = .next { t with
          flags := {
            zero := decide (v.toNat = 65535)
            carry := decide (v.toNat = 65535)
            sign := decide (32767 ≤ v.toNat ∧ v.toNat < 65535) }
          pc := s.pc + 1 }) ∧
    (Executable (.dec m k) s →
      ∃ v t, resolveValue m k s = some v ∧
        writtenBack m k (BitVec.ofNat 16 ((v.toNat + 65535) % 65536)) s = some t ∧
        exec (.dec m k) s = .next { t with
          flags := {
            zero := decide (v.toNat = 1)
            carry := decide (v.toNat ≠ 0)
            sign := decide (v.toNat = 0 ∨ 32768 < v.toNat) }
          pc := s.pc + 1 })

/-- XOR, AND and OR in every mode: bit by bit into A, `Z` and `SF` from the result, `CF` as it was
(42_alu.md section 3; D11: log entry 15). -/
def Obligations.XorAndOrCombineBitByBit : Prop :=
  ∀ (m : Mode) (k : Word) (s : State) (i : Instr) (f : Bool → Bool → Bool),
    (i, f) ∈ [(Instr.xor m k, Bool.xor), (Instr.and m k, Bool.and), (Instr.or m k, Bool.or)] →
    Executable i s →
    ∃ v r : Word, resolveValue m k s = some v ∧
      (∀ j, j < 16 → r.getLsbD j = f (s.regs.a.getLsbD j) (v.getLsbD j)) ∧
      exec i s = .next { s with
        regs := { s.regs with a := r }
        flags := { zero := decide (r = 0), carry := s.flags.carry, sign := r.getLsbD 15 }
        pc := s.pc + 1 }

/-- NOT in every mode: A takes 0xFFFF minus the operand, `Z` and `SF` follow, `CF` is as it was; the operand's place is not written
(42_alu.md NOT; D11: log entry 15). -/
def Obligations.NotComplementsIntoTheAccumulator : Prop :=
  ∀ (m : Mode) (k : Word) (s : State), Executable (.not m k) s →
    ∃ v, resolveValue m k s = some v ∧
      exec (.not m k) s = .next { s with
        regs := { s.regs with a := BitVec.ofNat 16 (65535 - v.toNat) }
        flags := {
          zero := decide (v.toNat = 65535)
          carry := s.flags.carry
          sign := decide (v.toNat < 32768) }
        pc := s.pc + 1 }

/-- SHL in every mode, its word, its write-back, its three flags and its faults (42_alu.md section 4). Executable in mode 00, which
needs a wider table, it writes the flags and skips the write-back: the model's reading of R121 against U12, log entry 9. -/
def Obligations.ShlShiftsTopBitIntoCarry : Prop :=
  ∀ (m : Mode) (k : Word),
    (encode (.shl m k)).toNat = 0x300000 + m.code.toNat * 0x10000 + k.toNat ∧
    raisesOnly (.shl m k) [.illegalMode, .unknownRegister] ∧ alwaysIllegalMode (.shl .immediate k) ∧
    ∀ s : State, Executable (.shl m k) s →
      ∃ v t, resolveValue m k s = some v ∧
        writtenBack m k (BitVec.ofNat 16 (v.toNat * 2 % 65536)) s = some t ∧
        exec (.shl m k) s = .next { t with
          flags := {
            zero := decide (v.toNat * 2 % 65536 = 0)
            carry := decide (v.toNat ≥ 32768)
            sign := decide (v.toNat * 2 % 65536 ≥ 32768) }
          pc := s.pc + 1 }

/-- SHR in every mode, its word, its write-back, its two flags, with `CF` as it was, and its faults (42_alu.md section 4). Executable
in mode 00, which needs a wider table, it writes the flags and skips the write-back: the model's reading of R122 against U12,
log entry 9. -/
def Obligations.ShrShiftsRightAndKeepsCarry : Prop :=
  ∀ (m : Mode) (k : Word),
    (encode (.shr m k)).toNat = 0x340000 + m.code.toNat * 0x10000 + k.toNat ∧
    raisesOnly (.shr m k) [.illegalMode, .unknownRegister] ∧ alwaysIllegalMode (.shr .immediate k) ∧
    ∀ s : State, Executable (.shr m k) s →
      ∃ v t, resolveValue m k s = some v ∧
        writtenBack m k (BitVec.ofNat 16 (v.toNat / 2)) s = some t ∧
        exec (.shr m k) s = .next { t with
          flags := { zero := decide (v.toNat < 2), carry := s.flags.carry, sign := false }
          pc := s.pc + 1 }

/-- An instruction whose operand names A sees the old A (42_alu.md section 6, "The same place as source and
destination", for the ALU instructions; for LOAD 41_data_movement.md LOAD, the spec's decision D8: log entry 14). -/
def Obligations.OperandThatNamesASeesTheOldA : Prop :=
  ∀ (i : Instr) (s : State) (old new : Word), s.regs.a = old →
    (i, new) ∈ [(Instr.add .register 1, BitVec.ofNat 16 (2 * old.toNat % 65536)), (.sub .register 1, 0),
        (.xor .register 1, 0), (.and .register 1, old), (.or .register 1, old),
        (.not .register 1, BitVec.ofNat 16 (65535 - old.toNat)), (.cmp .register 1, old), (.load .register 1, old)]
      ++ [(.add .indirect 1, BitVec.ofNat 16 ((old.toNat + (s.memRead old).toNat) % 65536)),
        (.load .indirect 1, s.memRead old)] →
    Executable i s →
    ∃ t, exec i s = .next t ∧ t.regs.a = new

/-! ### Control transfer -/

/-- JMP: `pc` becomes the index whose three addresses hold the operand, from 0 to 21845, and nothing else changes; an operand that
is three times an index lands on that index (43_control_transfer.md sections 1 and 2, 30_encoding.md section 4; D13). -/
def Obligations.JmpGoesToTheIndexOfTheAddress : Prop :=
  ∀ (m : Mode) (k : Word) (s : State) (n : Nat), Executable (.jmp m k) s → 3 * n ≤ k.toNat → k.toNat < 3 * n + 3 →
    n ≤ 21845 ∧ exec (.jmp m k) s = .next { s with pc := n }

/-- JZ and JNZ, their words, their pc and their faults; after CMP they test whether A is the operand, and after DEC whether the
operand has reached 0 (43_control_transfer.md section 2; D13 and log entry 19 for a mode other than 00, D16 and D17, log entry 17,
for the flags after CMP and DEC). -/
def Obligations.JzAndJnzTestZero : Prop :=
  (∀ (m : Mode) (k : Word),
    (encode (.jz .immediate k)).toNat = 0x4C0000 + k.toNat ∧ raisesOnly (.jz m k) [.illegalMode] ∧
    (encode (.jnz .immediate k)).toNat = 0x500000 + k.toNat ∧ raisesOnly (.jnz m k) [.illegalMode] ∧
    (m ≠ .immediate → alwaysIllegalMode (.jz m k) ∧ alwaysIllegalMode (.jnz m k)) ∧
    ∀ s : State,
      (Executable (.jz m k) s →
        exec (.jz m k) s = .next { s with pc := if s.flags.zero = true then k.toNat / 3 else s.pc + 1 }) ∧
      (Executable (.jnz m k) s →
        exec (.jnz m k) s = .next { s with pc := if s.flags.zero = true then s.pc + 1 else k.toNat / 3 })) ∧
  ∀ (m : Mode) (k : Word) (s : State),
    (Executable (.cmp m k) s →
      ∃ v t, resolveValue m k s = some v ∧ exec (.cmp m k) s = .next t ∧ (t.flags.zero = true ↔ s.regs.a = v)) ∧
    (Executable (.dec m k) s →
      ∃ v t, resolveValue m k s = some v ∧ exec (.dec m k) s = .next t ∧ (t.flags.zero = true ↔ v - 1 = 0))

/-- JC and JNC, their words, their pc and their faults; after CMP or SUB of a Word other than 0 they test the unsigned order, after
CMP or SUB of 0 `CF` is false, and after SHL they test the bit shifted out (43_control_transfer.md section 2; D13 and log entry 19
for a mode other than 00, D16 and log entry 17 for the carry of a subtraction, log entry 9 for SHL in mode 00). -/
def Obligations.JcAndJncTestCarry : Prop :=
  (∀ (m : Mode) (k : Word),
    (encode (.jc .immediate k)).toNat = 0x540000 + k.toNat ∧ raisesOnly (.jc m k) [.illegalMode] ∧
    (encode (.jnc .immediate k)).toNat = 0x580000 + k.toNat ∧ raisesOnly (.jnc m k) [.illegalMode] ∧
    (m ≠ .immediate → alwaysIllegalMode (.jc m k) ∧ alwaysIllegalMode (.jnc m k)) ∧
    ∀ s : State,
      (Executable (.jc m k) s →
        exec (.jc m k) s = .next { s with pc := if s.flags.carry = true then k.toNat / 3 else s.pc + 1 }) ∧
      (Executable (.jnc m k) s →
        exec (.jnc m k) s = .next { s with pc := if s.flags.carry = true then s.pc + 1 else k.toNat / 3 })) ∧
  ∀ (m : Mode) (k : Word) (s : State),
    (Executable (.cmp m k) s →
      ∃ v t, resolveValue m k s = some v ∧ exec (.cmp m k) s = .next t ∧
        (t.flags.carry = true ↔ v ≠ 0 ∧ v.toNat ≤ s.regs.a.toNat)) ∧
    (Executable (.sub m k) s →
      ∃ v t, resolveValue m k s = some v ∧ exec (.sub m k) s = .next t ∧
        (t.flags.carry = true ↔ v ≠ 0 ∧ v.toNat ≤ s.regs.a.toNat)) ∧
    (Executable (.shl m k) s →
      ∃ v t, resolveValue m k s = some v ∧ exec (.shl m k) s = .next t ∧ t.flags.carry = v.getLsbD 15)

/-- JA, JAE, JB and JBE: the target when the predicate over `SF` and `Z` holds, else the next index, and nothing else changes
(43_control_transfer.md section 2; the predicates are the spec's decision D12: log entry 16). -/
def Obligations.JaToJbeTestSignAndZero : Prop :=
  ∀ (m : Mode) (k : Word) (s : State) (i : Instr) (taken : Prop) [Decidable taken],
    (i = .ja m k ∧ (taken ↔ s.flags.sign = false ∧ s.flags.zero = false)) ∨
    (i = .jae m k ∧ (taken ↔ s.flags.sign = false ∨ s.flags.zero = true)) ∨
    (i = .jb m k ∧ (taken ↔ s.flags.sign = true ∧ s.flags.zero = false)) ∨
    (i = .jbe m k ∧ (taken ↔ s.flags.sign = true ∨ s.flags.zero = true)) →
    Executable i s →
    exec i s = .next { s with pc := if taken then k.toNat / 3 else s.pc + 1 }

/-- What the four comparisons mean after CMP, by the difference modulo 65536 (43_control_transfer.md section 3; D12). -/
def Obligations.CompareThenBranchFollowsTheDifference : Prop :=
  ∀ (m mj : Mode) (k kj : Word) (s : State), Executable (.cmp m k) s →
    ∃ v u, resolveValue m k s = some v ∧ exec (.cmp m k) s = .next u ∧ ∀ d, d = (s.regs.a.toNat + 65536 - v.toNat) % 65536 →
      (Executable (.ja mj kj) s →
        exec (.ja mj kj) u = .next { u with pc := if 1 ≤ d ∧ d ≤ 0x7FFF then kj.toNat / 3 else s.pc + 2 }) ∧
      (Executable (.jae mj kj) s →
        exec (.jae mj kj) u = .next { u with pc := if d ≤ 0x7FFF then kj.toNat / 3 else s.pc + 2 }) ∧
      (Executable (.jb mj kj) s →
        exec (.jb mj kj) u = .next { u with pc := if 0x8000 ≤ d then kj.toNat / 3 else s.pc + 2 }) ∧
      (Executable (.jbe mj kj) s →
        exec (.jbe mj kj) u = .next { u with pc := if d = 0 ∨ 0x8000 ≤ d then kj.toNat / 3 else s.pc + 2 })

/-! ### System and input/output -/

/-- HALT with any operand field: `pc` moves on, `run` is HALTED, nothing else changes
(44_system_io.md HALT, 30_encoding.md section 3; D20, D28). -/
def Obligations.HaltEndsTheRun : Prop :=
  ∀ (m : Mode) (k : Word) (s : State), Executable (.halt m k) s →
    exec (.halt m k) s = .next { s with pc := s.pc + 1, run := .halted }

/-- NOP with any operand field: `pc` moves on and nothing else changes (44_system_io.md NOP; D20). -/
def Obligations.NopOnlyMovesOn : Prop :=
  ∀ (m : Mode) (k : Word) (s : State), Executable (.nop m k) s →
    exec (.nop m k) s = .next { s with pc := s.pc + 1 }

/-- READ in every mode that names a place: the next Word of `IN` goes there and is consumed; when `IN` is used up there is no step.
`IN` holds its listed Words in order, and then nothing or, for an endless source, unknown Words
(44_system_io.md READ; D18; log entries 3 and 7). -/
def Obligations.ReadStoresTheNextCharacter : Prop :=
  ∀ (m : Mode) (k : Word) (s : State), Executable (.read m k) s →
    (∀ v, s.par.input.wordAt s.inpos = some v → m ≠ .immediate →
      ∃ t, resolveStore m k v { s with inpos := s.inpos + 1 } = some t ∧
        exec (.read m k) s = .next { t with pc := s.pc + 1 }) ∧
    (s.par.input.wordAt s.inpos = none → exec (.read m k) s = .fault .inputExhausted) ∧
    (∀ v, s.par.input.given[s.inpos]? = some v → s.par.input.wordAt s.inpos = some v) ∧
    (s.par.input.given.length ≤ s.inpos → (s.par.input.wordAt s.inpos = none ↔ s.par.input.tail = .ended))

/-- PRINT in every mode: all 16 bits of the operand's value become the newest output entry
(44_system_io.md PRINT; D10, D19). -/
def Obligations.PrintAppendsTheOperand : Prop :=
  ∀ (m : Mode) (k : Word) (s : State), Executable (.print m k) s →
    ∃ v, resolveValue m k s = some v ∧
      exec (.print m k) s = .next { s with out := s.out ++ [v], pc := s.pc + 1 }

/-! ### Frames over all instructions -/

/-- No instruction changes a register other than A, when it is one of those that write A without naming it, and the one its
operand names in mode 01, when it is one of those that store (10_state.md section 2). -/
def Obligations.OnlyTheDestinationRegisterChanges : Prop :=
  ∀ (i : Instr) (s t : State) (r : Reg), exec i s = .next t →
    (r = .a → i.opcode ∉ [.load, .add, .sub, .xor, .and, .or, .not]) →
    (i.opcode ∈ [.store, .pop, .read, .inc, .dec, .shl, .shr] →
      placeOf i.mode i.operand s ≠ some (.register r)) →
    t.reg r = s.reg r

/-- No instruction changes a memory cell other than the one its operand names, and only STORE, POP, READ, INC, DEC, SHL and SHR
change that: for every address that is not the one stored to, reading it after gives what reading it before gave
(20_memory.md section 2). -/
def Obligations.OnlyTheDestinationCellChanges : Prop :=
  ∀ (i : Instr) (s t : State) (other : Word), exec i s = .next t →
    (i.opcode ∈ [.store, .pop, .read, .inc, .dec, .shl, .shr] →
      placeOf i.mode i.operand s ≠ some (.cell other)) →
    t.memRead other = s.memRead other

/-- Which instructions write which flags: the table of 10_state.md section 4 (D11 for `CF` after the logic instructions). -/
def Obligations.FlagsAreWrittenOnlyByTheirInstructions : Prop :=
  ∀ (i : Instr) (s t : State), exec i s = .next t →
    (i.opcode ∉ [.add, .sub, .cmp, .inc, .dec, .shl] → t.flags.carry = s.flags.carry) ∧
    (i.opcode ∉ [.add, .sub, .cmp, .inc, .dec, .shl, .xor, .and, .or, .not, .shr] → t.flags = s.flags)

/-- After an instruction that does not fault `pc` is one more, for HALT too, except after a jump, where it is that or the jump's
target; a faulting instruction leaves `pc` and all else but `run`; and only HALT and a fault change `run`
(10_state.md sections 3 and 7, 40_fetch_decode_dispatch.md section 4; D6, D28). -/
def Obligations.PcAndRunStateMoveAsTheStepSays : Prop :=
  ∀ (i : Instr) (s t : State), exec i s = .next t → s.run.kind? = none →
    (t.run.kind? = none →
      (i.opcode ∉ [.jmp, .jz, .jnz, .jc, .jnc, .ja, .jae, .jb, .jbe] → t.pc = s.pc + 1) ∧
      (t.pc = s.pc + 1 ∨ t.pc = i.operand.toNat / 3) ∧
      (i.opcode ≠ .halt → t.run = s.run)) ∧
    (t.run.kind? ≠ none → t = { s with run := t.run })

/-- The stack (10_state.md section 5): it is last in, first out; PUSH appends and never fails for want of room; POP takes the last entry and
faults on an empty stack; no other instruction touches it, PUSH touches no memory and POP none but the cell its operand names;
and no outcome but the stack itself depends on an entry other than the newest, which only POP reads. Which Word PUSH appends and
where POP puts it are the spec's decision D9 (log entry 14); the run of six instructions also rests on D1 and D4 (log entries 12
and 13). -/
def Obligations.StackIsLastInFirstOut : Prop :=
  (∀ (s : State) (v1 v2 v3 : Word), s.par.legal = defaultLegalModes →
    execAll [.push .immediate v1, .push .immediate v2, .push .immediate v3,
        .pop .register 1, .pop .register 2, .pop .register 3] s =
      some { s with regs := { s.regs with a := v3, b := v2, c := v1 }, pc := s.pc + 6 }) ∧
  (∀ (i : Instr) (s t : State), exec i s = .next t → i.opcode ≠ .push → i.opcode ≠ .pop → t.stack = s.stack) ∧
  (∀ (m : Mode) (k : Word) (s : State), Executable (.push m k) s →
    ∃ v t, resolveValue m k s = some v ∧ exec (.push m k) s = .next t ∧ t.stack = s.stack ++ [v] ∧ t.mem = s.mem) ∧
  (∀ (m : Mode) (k : Word) (s t : State), Executable (.pop m k) s → exec (.pop m k) s = .next t → s.stack ≠ [] →
    ∃ v, s.stack = t.stack ++ [v] ∧ (m ≠ .immediate → resolveValue m k t = some v)) ∧
  (∀ (m : Mode) (k : Word) (s : State), Executable (.pop m k) s → s.stack = [] →
    ∃ t, exec (.pop m k) s = .next t ∧ t.run.kind? = some .stackUnderflow) ∧
  (∀ (i : Instr) (s t : State) (other : List Word), i.opcode ≠ .pop → exec i s = .next t →
    ∃ added, t.stack = s.stack ++ added ∧ exec i { s with stack := other } = .next { t with stack := other ++ added }) ∧
  (∀ (m : Mode) (k : Word) (s t : State) (rest other : List Word) (v : Word), Executable (.pop m k) s →
    s.stack = rest ++ [v] → exec (.pop m k) s = .next t →
    exec (.pop m k) { s with stack := other ++ [v] } = .next { t with stack := other }) ∧
  (∀ (m : Mode) (k : Word) (s t : State) (addr : Word), exec (.pop m k) s = .next t →
    placeOf m k s ≠ some (.cell addr) → t.memRead addr = s.memRead addr)

/-- One input Word per READ that runs and one output entry per PRINT that runs, in order, and only READ can block; the output is
never read back: what it holds changes no outcome but itself (20_memory.md section 4). That PRINT appends the value of its operand
is the spec's decision D10 (log entry 14), and how READ waits is D18 (log entry 7). -/
def Obligations.StreamsMoveOnlyByReadAndPrint : Prop :=
  (∀ (i : Instr) (s t : State), exec i s = .next t → s.run.kind? = none →
    t.inpos = s.inpos + (if i.opcode = .read ∧ t.run.kind? = none then 1 else 0) ∧
    (i.opcode = .read ∧ t.run.kind? = none → ∃ v, s.par.input.wordAt s.inpos = some v ∧
      resolveValue i.mode i.operand t = some v) ∧
    (i.opcode = .print ∧ t.run.kind? = none → ∃ v, resolveValue i.mode i.operand s = some v ∧ t.out = s.out ++ [v]) ∧
    (i.opcode ≠ .print ∨ t.run.kind? ≠ none → t.out = s.out)) ∧
  (∀ (i : Instr) (s : State), exec i s = .fault .inputExhausted → i.opcode = .read) ∧
  (∀ (i : Instr) (s t : State) (other : List Word), exec i s = .next t →
    ∃ added, t.out = s.out ++ added ∧ exec i { s with out := other } = .next { t with out := other ++ added })

/-! ### Invariants and runs -/

/-- Every step keeps the invariant: the memory's canonical form, `Z` and `SF` never both true, the bound on `pc`, the truth of a
fault record, the input count and the soundness of the legality table (10_state.md sections 3, 4, 6 and 7). -/
def Obligations.EveryStepKeepsTheInvariant : Prop :=
  ∀ s t : State, Inv s → step s = .next t → Inv t

/-- The invariant holds at the start of every run whose table keeps mode 00 from the storing instructions, with the start values of
D15 and D18 (log entry 5), and so at reset, with the unloaded parameters of log entry 4. -/
def Obligations.ResetMeetsTheInvariant : Prop :=
  (∀ par : Params, storesNamePlaces par.legal → Inv (State.start par)) ∧ Inv State.reset

/-- The state at the start of a run (10_state.md section 9; the values of the registers, the flags, `pc`, the stack and `inpos` are the
spec's decisions D15 and D18: log entry 5). Reset is such a start, with the unloaded parameters of log entry 4. -/
def Obligations.StartOfARun : Prop :=
  (∀ par : Params,
    (∀ r, (State.start par).reg r = 0x0000) ∧ (State.start par).pc = 0 ∧
    (State.start par).flags = ⟨false, false, false⟩ ∧ (State.start par).stack = [] ∧
    (∀ a, (State.start par).memRead a = 0x0000) ∧ (State.start par).run = .running ∧
    (State.start par).out = [] ∧ (State.start par).inpos = 0 ∧ (State.start par).par = par) ∧
  ∃ par, State.reset = State.start par ∧ par.prog = [] ∧ par.legal = defaultLegalModes

/-- 20_memory.md R42: no run of any length changes `PROG`, nor the two other parameters, and a fetch reads `PROG` alone. -/
def Obligations.NoRunChangesTheProgram : Prop :=
  (∀ (n : Nat) (s t : State), RunsTo s n t → t.par = s.par) ∧
  ∀ s : State, s.run = .running → ∀ w, s.fetch = .ok w ↔ s.par.prog[s.pc]? = some w

/-- A run that does not fault under the narrower table of 93_implementation_defined.md G3 is the same run under the default. -/
def Obligations.RunUnderNarrowTableIsRunUnderDefault : Prop :=
  ∀ (n : Nat) (s t : State), s.par.legal = narrowLegalModes → RunsTo s n t → t.run.kind? = none →
    RunsTo (s.withLegal defaultLegalModes) n (t.withLegal defaultLegalModes)

/-! ### Toolchain contract -/

/-- A program that assembles under a legality table holds only words of instructions well formed under that table: a legal mode, in
modes 01 and 10 a register id, and for HALT and NOP a zero operand (30_encoding.md section 4; log entries 22 and 24). -/
def Obligations.AssembledWordsAreWellFormedInstructions : Prop :=
  ∀ (legal : LegalModes) (source : List (List Char)) (prog : List InstrWord), assemble legal source = .ok prog →
    ∀ w, w ∈ prog → ∃ i, decode w = .ok i ∧ i.wfUnder legal = true

/-- A label's address is three times the number of instruction lines before it, and a jump to that address lands on that index
(30_encoding.md section 4, 43_control_transfer.md section 1). -/
def Obligations.LabelAddressIsThreeTimesTheIndex : Prop :=
  ∀ (lines : List (List Token)) (labels : LabelTable), pass1 0 lines = .ok labels →
    ∀ name addr, (name, addr) ∈ labels →
      ∃ before line after, lines = before ++ line :: after ∧ labelOf line = some name ∧
        addr = 3 * (before.filter fun l => !l.isEmpty && (labelOf l).isNone).length ∧
        ∀ k, asWord addr = some k → jumpTarget k = (before.filter fun l => !l.isEmpty && (labelOf l).isNone).length

/-- The text form of a program, six hex digits a line, loads back to the program (30_encoding.md section 3). -/
def Obligations.TextFormLoadsBack : Prop :=
  ∀ prog : List InstrWord, loadProgram (prog.map lineOf) = some prog

/-- A program that assembles never raises IllegalOpcode, IllegalMode or UnknownRegister on an engine with the same legality table:
no run of it, with any input, faults but by StackUnderflow (30_encoding.md section 4; log entries 11 and 22). -/
def Obligations.AssembledProgramFaultsOnlyByStackUnderflow : Prop :=
  ∀ (legal : LegalModes) (source : List (List Char)) (prog : List InstrWord) (input : InputSource) (n : Nat) (t : State),
    assemble legal source = .ok prog → RunsTo (State.start ⟨prog, input, legal⟩) n t →
    ∀ kind, t.run.kind? = some kind → kind = .stackUnderflow
end

