-- ==== Sys2Proof/Laws/Flags.lean ====
section
/-! SUPPORT. The ALU primitives as arithmetic on natural numbers. -/

namespace Sys2Proof.Machine

@[simp] theorem add16_fst (a b : Word) : (add16 a b).1 = a + b := by
  apply BitVec.eq_of_toNat_eq
  simp [add16]

@[simp] theorem add16_snd (a b : Word) : (add16 a b).2 = decide (65535 < a.toNat + b.toNat) := rfl

@[simp] theorem neg16_eq (v : Word) : neg16 v = -v := by
  simp [neg16, BitVec.neg_eq_not_add]

@[simp] theorem shiftLeft1_toNat (v : Word) : (shiftLeft1 v).toNat = v.toNat * 2 % 65536 := by
  simp [shiftLeft1]

@[simp] theorem shiftRight1_toNat (v : Word) : (shiftRight1 v).toNat = v.toNat / 2 := by
  have := v.isLt
  simp only [shiftRight1, BitVec.toNat_ofNat]
  omega

/-- Bit 15 of a Word is set exactly when the Word is 0x8000 or more. -/
theorem topBit_eq (v : Word) : topBit v = decide (32768 ≤ v.toNat) := by
  have h := BitVec.msb_eq_decide v
  simpa [topBit, BitVec.msb_eq_getLsbD_last] using h

/-- `SetZS` in terms of the result as a number. -/
theorem Flags.setZS_eq (r : Word) (f : Flags) :
    f.setZS r = { f with zero := decide (r.toNat = 0), sign := decide (32768 ≤ r.toNat) } := by
  simp [Flags.setZS, topBit_eq, ← BitVec.toNat_inj]

/-- A Word and its zero-ness and top bit: never both. -/
theorem zero_sign_exclusive (r : Word) : ¬(decide (r = 0) = true ∧ topBit r = true) := by
  rintro ⟨hz, hs⟩
  simp at hz
  subst hz
  simp [topBit] at hs

/-- The carry of a subtraction's addition in closed form. -/
theorem add16_neg16_carry (a v : Word) :
    (add16 a (neg16 v)).2 = decide (v.toNat ≠ 0 ∧ v.toNat ≤ a.toNat) := by
  have ha := a.isLt
  have hv := v.isLt
  simp only [add16_snd, neg16_eq, BitVec.toNat_neg, decide_eq_decide]
  omega

end Sys2Proof.Machine
end

