-- ==== Sys2Proof/Laws/Memory.lean ====
section
/-! SUPPORT. The data memory: reads after writes, and the canonical form kept by every operation. -/

namespace Sys2Proof.Machine

theorem Memory.read_insert_same (a : Nat) (v : Word) (mem : Memory) (h : ∀ c ∈ mem, c.1 ≠ a) :
    Memory.read a (Memory.insert a v mem) = v := by
  induction mem with
  | nil => simp [Memory.insert, Memory.read]
  | cons c rest ih =>
    obtain ⟨b, x⟩ := c
    have hb : b ≠ a := h (b, x) (by simp)
    by_cases hlt : a < b
    · simp [Memory.insert, Memory.read, hlt]
    · simp [Memory.insert, Memory.read, hlt, hb, ih fun c hc => h c (by simp [hc])]

theorem Memory.read_insert_other {a b : Nat} (v : Word) (mem : Memory) (h : b ≠ a) :
    Memory.read b (Memory.insert a v mem) = Memory.read b mem := by
  induction mem with
  | nil => simp [Memory.insert, Memory.read, h.symm]
  | cons c rest ih =>
    obtain ⟨c, x⟩ := c
    by_cases hlt : a < c
    · simp [Memory.insert, Memory.read, hlt, h.symm]
    · simp [Memory.insert, Memory.read, hlt, ih]

/-- An address that is not listed reads as an unwritten cell. -/
theorem Memory.read_unlisted {a : Nat} {mem : Memory} (h : ∀ c ∈ mem, c.1 ≠ a) :
    Memory.read a mem = Memory.unwritten := by
  induction mem with
  | nil => rfl
  | cons c rest ih =>
    obtain ⟨b, x⟩ := c
    have hb : b ≠ a := h (b, x) (by simp)
    simp [Memory.read, hb, ih fun c hc => h c (by simp [hc])]

theorem Memory.erase_unlisted (a : Nat) (mem : Memory) : ∀ c ∈ Memory.erase a mem, c.1 ≠ a := by
  intro c hc
  simpa [Memory.erase] using (List.mem_filter.mp hc).2

theorem Memory.read_erase_other {a b : Nat} (mem : Memory) (h : b ≠ a) :
    Memory.read b (Memory.erase a mem) = Memory.read b mem := by
  induction mem with
  | nil => rfl
  | cons c rest ih =>
    obtain ⟨c, x⟩ := c
    by_cases hc : c = a
    · subst hc
      simpa [Memory.erase, Memory.read, h.symm] using ih
    · have keep : Memory.erase a ((c, x) :: rest) = (c, x) :: Memory.erase a rest := by simp [Memory.erase, hc]
      simp [keep, Memory.read, ih]

/-- A read after a write to the same address gives the Word written. -/
@[simp] theorem Memory.read_write_same (a : Nat) (v : Word) (mem : Memory) :
    Memory.read a (Memory.write a v mem) = v := by
  unfold Memory.write
  split
  · next h => rw [Memory.read_unlisted (Memory.erase_unlisted a mem), h]
  · exact Memory.read_insert_same a v _ (Memory.erase_unlisted a mem)

/-- A write leaves every other address alone. -/
@[simp] theorem Memory.read_write_other {a b : Nat} (v : Word) (mem : Memory) (h : b ≠ a) :
    Memory.read b (Memory.write a v mem) = Memory.read b mem := by
  unfold Memory.write
  split
  · exact Memory.read_erase_other mem h
  · rw [Memory.read_insert_other v _ h, Memory.read_erase_other mem h]

theorem Memory.erase_wf {mem : Memory} (a : Nat) (h : Memory.wf mem) : Memory.wf (Memory.erase a mem) :=
  ⟨h.1.filter _, fun c hc => h.2 c (List.mem_filter.mp hc).1⟩

theorem Memory.mem_insert {a : Nat} {v : Word} {mem : Memory} {c : Nat × Word}
    (h : c ∈ Memory.insert a v mem) : c = (a, v) ∨ c ∈ mem := by
  induction mem with
  | nil => simpa [Memory.insert] using h
  | cons d rest ih =>
    obtain ⟨b, x⟩ := d
    unfold Memory.insert at h
    split at h
    · simpa using h
    · rcases List.mem_cons.mp h with rfl | h
      · simp
      · rcases ih h with rfl | h <;> simp_all

theorem Memory.insert_wf {mem : Memory} {a : Nat} {v : Word} (h : Memory.wf mem) (ha : a < 65536)
    (hv : v ≠ Memory.unwritten) (unlisted : ∀ c ∈ mem, c.1 ≠ a) : Memory.wf (Memory.insert a v mem) := by
  refine ⟨?_, fun c hc => ?_⟩
  · have sorted := h.1
    clear h
    induction mem with
    | nil => simp [Memory.insert]
    | cons d rest ih =>
      obtain ⟨b, x⟩ := d
      have hb : b ≠ a := unlisted (b, x) (by simp)
      obtain ⟨above, tailSorted⟩ := List.pairwise_cons.mp sorted
      unfold Memory.insert
      split
      · next lt =>
        refine List.pairwise_cons.mpr ⟨fun c hc => ?_, sorted⟩
        rcases List.mem_cons.mp hc with rfl | hc
        · exact lt
        · exact Nat.lt_trans lt (above c hc)
      · next ge =>
        refine List.pairwise_cons.mpr ⟨fun c hc => ?_, ih (fun c hc => unlisted c (by simp [hc])) tailSorted⟩
        rcases Memory.mem_insert hc with rfl | hc
        · simp only; omega
        · exact above c hc
  · rcases Memory.mem_insert hc with rfl | hc
    · exact ⟨ha, hv⟩
    · exact h.2 c hc

/-- A write keeps the canonical form. -/
theorem Memory.write_wf {mem : Memory} {a : Nat} (v : Word) (h : Memory.wf mem) (ha : a < 65536) :
    Memory.wf (Memory.write a v mem) := by
  unfold Memory.write
  split
  · exact Memory.erase_wf a h
  · next hv => exact Memory.insert_wf (Memory.erase_wf a h) ha hv (Memory.erase_unlisted a mem)

/-- `MemWrite` keeps the canonical form, since an address is a Word. -/
theorem State.memWrite_wf {s : State} (addr v : Word) (h : Memory.wf s.mem) : Memory.wf (s.memWrite addr v).mem :=
  Memory.write_wf v h addr.isLt

/-- Reset memory has the canonical form. -/
theorem State.start_mem_wf (par : Params) : Memory.wf (State.start par).mem := by
  simp [State.start, Memory.wf]

@[simp] theorem State.memRead_memWrite_same (s : State) (addr v : Word) : (s.memWrite addr v).memRead addr = v :=
  Memory.read_write_same ..

@[simp] theorem State.memRead_memWrite_other (s : State) {addr other : Word} (v : Word) (h : other ≠ addr) :
    (s.memWrite addr v).memRead other = s.memRead other :=
  Memory.read_write_other v s.mem fun e => h (BitVec.eq_of_toNat_eq e)

end Sys2Proof.Machine
end

