-- ==== Sys2Proof/Laws/State.lean ====
section
/-! SUPPORT. One lemma per field per update of the state, so that no proof unfolds a record update. -/

namespace Sys2Proof.Machine

variable (s : State)

/-! The parts of `Flags` after each flag update. -/

@[simp] theorem Flags.zero_setZS (f : Flags) (r : Word) : (f.setZS r).zero = decide (r = 0) := rfl
@[simp] theorem Flags.sign_setZS (f : Flags) (r : Word) : (f.setZS r).sign = topBit r := rfl
@[simp] theorem Flags.carry_setZS (f : Flags) (r : Word) : (f.setZS r).carry = f.carry := rfl
@[simp] theorem Flags.zero_setCarry (f : Flags) (c : Bool) : (f.setCarry c).zero = f.zero := rfl
@[simp] theorem Flags.sign_setCarry (f : Flags) (c : Bool) : (f.setCarry c).sign = f.sign := rfl
@[simp] theorem Flags.carry_setCarry (f : Flags) (c : Bool) : (f.setCarry c).carry = c := rfl

/-! `State.setReg`. -/

@[simp] theorem State.regs_setReg (r : Reg) (v : Word) : (s.setReg r v).regs = s.regs.set r v := rfl
@[simp] theorem State.pc_setReg (r : Reg) (v : Word) : (s.setReg r v).pc = s.pc := rfl
@[simp] theorem State.flags_setReg (r : Reg) (v : Word) : (s.setReg r v).flags = s.flags := rfl
@[simp] theorem State.stack_setReg (r : Reg) (v : Word) : (s.setReg r v).stack = s.stack := rfl
@[simp] theorem State.mem_setReg (r : Reg) (v : Word) : (s.setReg r v).mem = s.mem := rfl
@[simp] theorem State.run_setReg (r : Reg) (v : Word) : (s.setReg r v).run = s.run := rfl
@[simp] theorem State.out_setReg (r : Reg) (v : Word) : (s.setReg r v).out = s.out := rfl
@[simp] theorem State.inpos_setReg (r : Reg) (v : Word) : (s.setReg r v).inpos = s.inpos := rfl
@[simp] theorem State.par_setReg (r : Reg) (v : Word) : (s.setReg r v).par = s.par := rfl

/-! `State.setCarry`. -/

@[simp] theorem State.regs_setCarry (c : Bool) : (s.setCarry c).regs = s.regs := rfl
@[simp] theorem State.pc_setCarry (c : Bool) : (s.setCarry c).pc = s.pc := rfl
@[simp] theorem State.flags_setCarry (c : Bool) : (s.setCarry c).flags = s.flags.setCarry c := rfl
@[simp] theorem State.stack_setCarry (c : Bool) : (s.setCarry c).stack = s.stack := rfl
@[simp] theorem State.mem_setCarry (c : Bool) : (s.setCarry c).mem = s.mem := rfl
@[simp] theorem State.run_setCarry (c : Bool) : (s.setCarry c).run = s.run := rfl
@[simp] theorem State.out_setCarry (c : Bool) : (s.setCarry c).out = s.out := rfl
@[simp] theorem State.inpos_setCarry (c : Bool) : (s.setCarry c).inpos = s.inpos := rfl
@[simp] theorem State.par_setCarry (c : Bool) : (s.setCarry c).par = s.par := rfl

/-! `State.setZS`. -/

@[simp] theorem State.regs_setZS (r : Word) : (s.setZS r).regs = s.regs := rfl
@[simp] theorem State.pc_setZS (r : Word) : (s.setZS r).pc = s.pc := rfl
@[simp] theorem State.flags_setZS (r : Word) : (s.setZS r).flags = s.flags.setZS r := rfl
@[simp] theorem State.stack_setZS (r : Word) : (s.setZS r).stack = s.stack := rfl
@[simp] theorem State.mem_setZS (r : Word) : (s.setZS r).mem = s.mem := rfl
@[simp] theorem State.run_setZS (r : Word) : (s.setZS r).run = s.run := rfl
@[simp] theorem State.out_setZS (r : Word) : (s.setZS r).out = s.out := rfl
@[simp] theorem State.inpos_setZS (r : Word) : (s.setZS r).inpos = s.inpos := rfl
@[simp] theorem State.par_setZS (r : Word) : (s.setZS r).par = s.par := rfl

/-! `State.memWrite`. -/

@[simp] theorem State.regs_memWrite (addr v : Word) : (s.memWrite addr v).regs = s.regs := rfl
@[simp] theorem State.pc_memWrite (addr v : Word) : (s.memWrite addr v).pc = s.pc := rfl
@[simp] theorem State.flags_memWrite (addr v : Word) : (s.memWrite addr v).flags = s.flags := rfl
@[simp] theorem State.stack_memWrite (addr v : Word) : (s.memWrite addr v).stack = s.stack := rfl
@[simp] theorem State.mem_memWrite (addr v : Word) : (s.memWrite addr v).mem = Memory.write addr.toNat v s.mem := rfl
@[simp] theorem State.run_memWrite (addr v : Word) : (s.memWrite addr v).run = s.run := rfl
@[simp] theorem State.out_memWrite (addr v : Word) : (s.memWrite addr v).out = s.out := rfl
@[simp] theorem State.inpos_memWrite (addr v : Word) : (s.memWrite addr v).inpos = s.inpos := rfl
@[simp] theorem State.par_memWrite (addr v : Word) : (s.memWrite addr v).par = s.par := rfl

/-! `State.push`. -/

@[simp] theorem State.regs_push (v : Word) : (s.push v).regs = s.regs := rfl
@[simp] theorem State.pc_push (v : Word) : (s.push v).pc = s.pc := rfl
@[simp] theorem State.flags_push (v : Word) : (s.push v).flags = s.flags := rfl
@[simp] theorem State.stack_push (v : Word) : (s.push v).stack = s.stack ++ [v] := rfl
@[simp] theorem State.mem_push (v : Word) : (s.push v).mem = s.mem := rfl
@[simp] theorem State.run_push (v : Word) : (s.push v).run = s.run := rfl
@[simp] theorem State.out_push (v : Word) : (s.push v).out = s.out := rfl
@[simp] theorem State.inpos_push (v : Word) : (s.push v).inpos = s.inpos := rfl
@[simp] theorem State.par_push (v : Word) : (s.push v).par = s.par := rfl

/-! `State.emit`. -/

@[simp] theorem State.regs_emit (v : Word) : (s.emit v).regs = s.regs := rfl
@[simp] theorem State.pc_emit (v : Word) : (s.emit v).pc = s.pc := rfl
@[simp] theorem State.flags_emit (v : Word) : (s.emit v).flags = s.flags := rfl
@[simp] theorem State.stack_emit (v : Word) : (s.emit v).stack = s.stack := rfl
@[simp] theorem State.mem_emit (v : Word) : (s.emit v).mem = s.mem := rfl
@[simp] theorem State.run_emit (v : Word) : (s.emit v).run = s.run := rfl
@[simp] theorem State.out_emit (v : Word) : (s.emit v).out = s.out ++ [v] := rfl
@[simp] theorem State.inpos_emit (v : Word) : (s.emit v).inpos = s.inpos := rfl
@[simp] theorem State.par_emit (v : Word) : (s.emit v).par = s.par := rfl

/-! `State.advance`. -/

@[simp] theorem State.regs_advance : (s.advance).regs = s.regs := rfl
@[simp] theorem State.pc_advance : (s.advance).pc = s.pc + 1 := rfl
@[simp] theorem State.flags_advance : (s.advance).flags = s.flags := rfl
@[simp] theorem State.stack_advance : (s.advance).stack = s.stack := rfl
@[simp] theorem State.mem_advance : (s.advance).mem = s.mem := rfl
@[simp] theorem State.run_advance : (s.advance).run = s.run := rfl
@[simp] theorem State.out_advance : (s.advance).out = s.out := rfl
@[simp] theorem State.inpos_advance : (s.advance).inpos = s.inpos := rfl
@[simp] theorem State.par_advance : (s.advance).par = s.par := rfl

/-! `State.jumpTo`. -/

@[simp] theorem State.regs_jumpTo (k : Word) : (s.jumpTo k).regs = s.regs := rfl
@[simp] theorem State.pc_jumpTo (k : Word) : (s.jumpTo k).pc = jumpTarget k := rfl
@[simp] theorem State.flags_jumpTo (k : Word) : (s.jumpTo k).flags = s.flags := rfl
@[simp] theorem State.stack_jumpTo (k : Word) : (s.jumpTo k).stack = s.stack := rfl
@[simp] theorem State.mem_jumpTo (k : Word) : (s.jumpTo k).mem = s.mem := rfl
@[simp] theorem State.run_jumpTo (k : Word) : (s.jumpTo k).run = s.run := rfl
@[simp] theorem State.out_jumpTo (k : Word) : (s.jumpTo k).out = s.out := rfl
@[simp] theorem State.inpos_jumpTo (k : Word) : (s.jumpTo k).inpos = s.inpos := rfl
@[simp] theorem State.par_jumpTo (k : Word) : (s.jumpTo k).par = s.par := rfl

/-! `State.halt`. -/

@[simp] theorem State.regs_halt : (s.halt).regs = s.regs := rfl
@[simp] theorem State.pc_halt : (s.halt).pc = s.pc := rfl
@[simp] theorem State.flags_halt : (s.halt).flags = s.flags := rfl
@[simp] theorem State.stack_halt : (s.halt).stack = s.stack := rfl
@[simp] theorem State.mem_halt : (s.halt).mem = s.mem := rfl
@[simp] theorem State.run_halt : (s.halt).run = .halted := rfl
@[simp] theorem State.out_halt : (s.halt).out = s.out := rfl
@[simp] theorem State.inpos_halt : (s.halt).inpos = s.inpos := rfl
@[simp] theorem State.par_halt : (s.halt).par = s.par := rfl

/-! `State.raise`. -/

@[simp] theorem State.regs_raise (kind : FaultKind) (w : InstrWord) : (s.raise kind w).regs = s.regs := rfl
@[simp] theorem State.pc_raise (kind : FaultKind) (w : InstrWord) : (s.raise kind w).pc = s.pc := rfl
@[simp] theorem State.flags_raise (kind : FaultKind) (w : InstrWord) : (s.raise kind w).flags = s.flags := rfl
@[simp] theorem State.stack_raise (kind : FaultKind) (w : InstrWord) : (s.raise kind w).stack = s.stack := rfl
@[simp] theorem State.mem_raise (kind : FaultKind) (w : InstrWord) : (s.raise kind w).mem = s.mem := rfl
@[simp] theorem State.run_raise (kind : FaultKind) (w : InstrWord) : (s.raise kind w).run = .faulted kind kind.code s.pc w := rfl
@[simp] theorem State.out_raise (kind : FaultKind) (w : InstrWord) : (s.raise kind w).out = s.out := rfl
@[simp] theorem State.inpos_raise (kind : FaultKind) (w : InstrWord) : (s.raise kind w).inpos = s.inpos := rfl
@[simp] theorem State.par_raise (kind : FaultKind) (w : InstrWord) : (s.raise kind w).par = s.par := rfl

/-! Registers, memory cells and legality through the updates. -/

@[simp] theorem State.reg_setReg_same (r : Reg) (v : Word) : (s.setReg r v).reg r = v := by
  cases r <;> rfl

@[simp] theorem State.reg_setReg_other {r other : Reg} (v : Word) (h : other ≠ r) :
    (s.setReg r v).reg other = s.reg other := by
  cases r <;> cases other <;> first | rfl | exact absurd rfl h

@[simp] theorem State.memRead_setReg (a : Word) (r : Reg) (v : Word) : (s.setReg r v).memRead a = s.memRead a := rfl
@[simp] theorem State.reg_setCarry (x : Reg) (c : Bool) : (s.setCarry c).reg x = s.reg x := rfl
@[simp] theorem State.memRead_setCarry (a : Word) (c : Bool) : (s.setCarry c).memRead a = s.memRead a := rfl
@[simp] theorem State.reg_setZS (x : Reg) (r : Word) : (s.setZS r).reg x = s.reg x := rfl
@[simp] theorem State.memRead_setZS (a : Word) (r : Word) : (s.setZS r).memRead a = s.memRead a := rfl
@[simp] theorem State.reg_memWrite (x : Reg) (addr v : Word) : (s.memWrite addr v).reg x = s.reg x := rfl
@[simp] theorem State.reg_push (x : Reg) (v : Word) : (s.push v).reg x = s.reg x := rfl
@[simp] theorem State.memRead_push (a : Word) (v : Word) : (s.push v).memRead a = s.memRead a := rfl
@[simp] theorem State.reg_emit (x : Reg) (v : Word) : (s.emit v).reg x = s.reg x := rfl
@[simp] theorem State.memRead_emit (a : Word) (v : Word) : (s.emit v).memRead a = s.memRead a := rfl
@[simp] theorem State.reg_advance (x : Reg) : (s.advance).reg x = s.reg x := rfl
@[simp] theorem State.memRead_advance (a : Word) : (s.advance).memRead a = s.memRead a := rfl
@[simp] theorem State.reg_jumpTo (x : Reg) (k : Word) : (s.jumpTo k).reg x = s.reg x := rfl
@[simp] theorem State.memRead_jumpTo (a : Word) (k : Word) : (s.jumpTo k).memRead a = s.memRead a := rfl
@[simp] theorem State.reg_halt (x : Reg) : (s.halt).reg x = s.reg x := rfl
@[simp] theorem State.memRead_halt (a : Word) : (s.halt).memRead a = s.memRead a := rfl
@[simp] theorem State.reg_raise (x : Reg) (kind : FaultKind) (w : InstrWord) : (s.raise kind w).reg x = s.reg x := rfl
@[simp] theorem State.memRead_raise (a : Word) (kind : FaultKind) (w : InstrWord) : (s.raise kind w).memRead a = s.memRead a := rfl

/-! The two updates that may have no result. -/

/-- Everything `Pop()` can do: the newest Word leaves the stack and nothing else changes. -/
theorem State.pop_eq_some {s t : State} {v : Word} (h : s.pop = some (v, t)) :
    s.stack = t.stack ++ [v] ∧ t = { s with stack := t.stack } := by
  unfold State.pop at h
  split at h
  · next w hw =>
    cases h
    obtain ⟨rest, hr⟩ := List.getLast?_eq_some_iff.mp hw
    exact ⟨by simp [hr], rfl⟩
  · cases h

/-- `Pop()` on a stack with a newest entry. -/
theorem State.pop_concat {s : State} {rest : List Word} {v : Word} (h : s.stack = rest ++ [v]) :
    s.pop = some (v, { s with stack := rest }) := by
  simp [State.pop, h]

/-- `Pop()` has no result exactly on the empty stack. -/
theorem State.pop_eq_none {s : State} : s.pop = none ↔ s.stack = [] := by
  rw [← List.getLast?_eq_none_iff]
  unfold State.pop
  split <;> simp_all

/-- Everything `In()` can do: the Word at `inpos` is consumed and nothing else changes. -/
theorem State.takeInput_eq_some {s t : State} {v : Word} (h : s.takeInput = some (v, t)) :
    s.par.input.wordAt s.inpos = some v ∧ t = { s with inpos := s.inpos + 1 } := by
  unfold State.takeInput at h
  split at h
  · next w hw => cases h; exact ⟨hw, rfl⟩
  · cases h

/-- `In()` has no result exactly when `IN` has no element at `inpos`. -/
theorem State.takeInput_eq_none {s : State} : s.takeInput = none ↔ s.par.input.wordAt s.inpos = none := by
  unfold State.takeInput
  split <;> simp_all

/-- A Word is counted only if the sequence had it. -/
theorem InputSource.length_of_wordAt {src : InputSource} {n : Nat} {v : Word} (h : src.wordAt n = some v)
    (ended : src.tail = .ended) : n < src.given.length := by
  unfold InputSource.wordAt at h
  split at h
  · next w hw => exact (List.getElem?_eq_some_iff.mp hw).1
  · simp [ended] at h

end Sys2Proof.Machine
end

