-- ==== Sys2Proof/Laws/Operands.lean ====
section
/-! SUPPORT. Operand resolution, the checks, and the shared ends of the meanings: for each, everything it can do. -/

namespace Sys2Proof.Machine

/-- An id is one of 1 to 5 exactly when it names a register. -/
theorem regIndex_isSome (k : Word) : (regIndex k).isSome = (decide (1 ≤ k.toNat) && decide (k.toNat ≤ 5)) := by
  have num : ∀ n : Nat, n < 65536 → (k = BitVec.ofNat 16 n ↔ k.toNat = n) := fun n hn => by
    rw [← BitVec.toNat_inj, BitVec.toNat_ofNat, Nat.mod_eq_of_lt hn]
  have h1 := num 1 (by decide)
  have h2 := num 2 (by decide)
  have h3 := num 3 (by decide)
  have h4 := num 4 (by decide)
  have h5 := num 5 (by decide)
  unfold regIndex
  split_ifs <;> simp_all
  omega

/-- The operand names a place exactly when check 3 of R83 passes. -/
theorem placeOf_isSome (i : Instr) (s : State) : (placeOf i.mode i.operand s).isSome = i.registerNamed := by
  unfold Instr.registerNamed
  cases h : i.mode <;> simp [placeOf, Mode.namesRegister, regIndex_isSome]

/-- An executable instruction is admitted, with the place its operand names. -/
theorem checked_of_executable {i : Instr} {s : State} (h : Executable i s) :
    ∃ p, placeOf i.mode i.operand s = some p ∧ checked i s = .ok p := by
  have hp := placeOf_isSome i s
  rw [h.2] at hp
  obtain ⟨p, hp⟩ := Option.isSome_iff_exists.mp hp
  exact ⟨p, hp, by simp [checked, h.1, hp]⟩

/-- Everything the checks can answer. -/
theorem checked_cases (i : Instr) (s : State) :
    (∃ p, Executable i s ∧ placeOf i.mode i.operand s = some p ∧ checked i s = .ok p) ∨
    (s.legal i.opcode i.mode = false ∧ checked i s = .error .illegalMode) ∨
    (s.legal i.opcode i.mode = true ∧ i.registerNamed = false ∧ checked i s = .error .unknownRegister) := by
  have hp := placeOf_isSome i s
  by_cases hl : s.legal i.opcode i.mode = true
  · cases h : placeOf i.mode i.operand s with
    | some p =>
      rw [h] at hp
      exact .inl ⟨p, ⟨hl, hp.symm⟩, rfl, by simp [checked, hl, h]⟩
    | none =>
      rw [h] at hp
      exact .inr (.inr ⟨hl, hp.symm, by simp [checked, hl, h]⟩)
  · exact .inr (.inl ⟨by simpa using hl, by simp [checked, hl]⟩)

/-- Everything an instruction behind the checks can do when it answers a next state: its handler's effect on an executable
instruction, or the entry into one of the two faults. -/
theorem admitted_next {i : Instr} {s t : State} {handler : Place → Result} (h : admitted i s handler = .next t) :
    (∃ p, Executable i s ∧ placeOf i.mode i.operand s = some p ∧ handler p = .next t) ∨
    (s.legal i.opcode i.mode = false ∧ t = s.raise .illegalMode (encode i)) ∨
    (s.legal i.opcode i.mode = true ∧ i.registerNamed = false ∧ t = s.raise .unknownRegister (encode i)) := by
  unfold admitted at h
  rcases checked_cases i s with ⟨p, he, hp, ha⟩ | ⟨hl, ha⟩ | ⟨hl, hr, ha⟩ <;> rw [ha] at h
  · exact .inl ⟨p, he, hp, h⟩
  · exact .inr (.inl ⟨hl, by cases h; rfl⟩)
  · exact .inr (.inr ⟨hl, hr, by cases h; rfl⟩)

/-- An executable instruction is its handler. -/
theorem admitted_of_executable {i : Instr} {s : State} (h : Executable i s) :
    ∃ p, placeOf i.mode i.operand s = some p ∧ ∀ handler, admitted i s handler = handler p := by
  obtain ⟨p, hp, ha⟩ := checked_of_executable h
  exact ⟨p, hp, fun handler => by simp [admitted, ha]⟩

/-- An instruction that a check turns away stops in no other way than by that check's fault. -/
theorem admitted_fault {i : Instr} {s : State} {handler : Place → Result} {f : Fault}
    (h : admitted i s handler = .fault f) :
    ∃ p, Executable i s ∧ placeOf i.mode i.operand s = some p ∧ handler p = .fault f := by
  unfold admitted at h
  rcases checked_cases i s with ⟨p, he, hp, ha⟩ | ⟨_, ha⟩ | ⟨_, _, ha⟩ <;> rw [ha] at h
  · exact ⟨p, he, hp, h⟩
  · cases h
  · cases h

/-- Everything a write to a place can do. -/
theorem Place.write_cases (p : Place) (v : Word) (s : State) :
    (∃ k, p = .immediate k ∧ p.write v s = none) ∨
    (∃ r, p = .register r ∧ p.write v s = some (s.setReg r v)) ∨
    (∃ addr, p = .cell addr ∧ p.write v s = some (s.memWrite addr v)) := by
  cases p with
  | immediate k => exact .inl ⟨k, rfl, rfl⟩
  | register r => exact .inr (.inl ⟨r, rfl, rfl⟩)
  | cell addr => exact .inr (.inr ⟨addr, rfl, rfl⟩)

@[simp] theorem Place.writeBack_immediate (k v : Word) (s : State) : (Place.immediate k).writeBack v s = s := rfl

@[simp] theorem Place.writeBack_register (r : Reg) (v : Word) (s : State) :
    (Place.register r).writeBack v s = s.setReg r v := rfl

@[simp] theorem Place.writeBack_cell (addr v : Word) (s : State) :
    (Place.cell addr).writeBack v s = s.memWrite addr v := rfl

/-- A place is an Immediate exactly when the mode is. -/
theorem placeOf_immediate_iff {m : Mode} {k : Word} {s : State} {p : Place} (h : placeOf m k s = some p) :
    (∃ v, p = .immediate v) ↔ m = .immediate := by
  cases m <;> simp_all [placeOf]
  · exact ⟨k, h.symm⟩
  · obtain ⟨r, _, rfl⟩ := h
    simp
  · obtain ⟨r, _, rfl⟩ := h
    simp
  · subst h
    simp

/-- Everything the end of a storing instruction can do. -/
theorem storeAndAdvance_cases (p : Place) (v : Word) (s : State) :
    (∃ k, p = .immediate k ∧ storeAndAdvance p v s = .fault .storeToImmediate) ∨
    (∃ r, p = .register r ∧ storeAndAdvance p v s = .next (s.setReg r v).advance) ∨
    (∃ addr, p = .cell addr ∧ storeAndAdvance p v s = .next (s.memWrite addr v).advance) := by
  cases p with
  | immediate k => exact .inl ⟨k, rfl, rfl⟩
  | register r => exact .inr (.inl ⟨r, rfl, rfl⟩)
  | cell addr => exact .inr (.inr ⟨addr, rfl, rfl⟩)

/-- A jump writes `pc` and nothing else. -/
theorem State.jumpIf_eq (taken : Bool) (k : Word) (s : State) :
    s.jumpIf taken k = { s with pc := if taken then jumpTarget k else s.pc + 1 } := by
  cases taken <;> rfl

end Sys2Proof.Machine
end

