-- ==== Sys2Proof/Laws/Alu.lean ====
section
/-! SUPPORT. The common parts of the ALU instructions: each as one record update, with the flags as arithmetic. -/

namespace Sys2Proof.Machine

/-- The flags of the addition of two Words (42_alu.md R110, R112). -/
theorem State.setSumFlags_add16 (a b : Word) (s : State) :
    s.setSumFlags (add16 a b) = { s with flags := {
      zero := decide ((a.toNat + b.toNat) % 65536 = 0)
      carry := decide (65535 < a.toNat + b.toNat)
      sign := decide (32768 ≤ (a.toNat + b.toNat) % 65536) } } := by
  simp [State.setSumFlags, State.setZS, State.setCarry, Flags.setZS_eq, Flags.setCarry]

/-- ADD and SUB: the accumulator, the flags, `pc`. -/
theorem State.accumulate_add16 (a b : Word) (s : State) :
    s.accumulate (add16 a b) = { s with
      regs := { s.regs with a := a + b }
      flags := {
        zero := decide ((a.toNat + b.toNat) % 65536 = 0)
        carry := decide (65535 < a.toNat + b.toNat)
        sign := decide (32768 ≤ (a.toNat + b.toNat) % 65536) }
      pc := s.pc + 1 } := by
  simp [State.accumulate, State.setSumFlags_add16, State.setReg, Regs.set, State.advance]

/-- XOR, AND, OR and NOT: the accumulator, two flags, `pc`. -/
theorem State.setLogic_eq (r : Word) (s : State) :
    s.setLogic r = { s with
      regs := { s.regs with a := r }
      flags := { zero := decide (r.toNat = 0), carry := s.flags.carry, sign := decide (32768 ≤ r.toNat) }
      pc := s.pc + 1 } := by
  simp [State.setLogic, State.setReg, Regs.set, State.setZS, Flags.setZS_eq, State.advance]

/-- The write-back touches registers and memory only. -/
theorem Place.writeBack_frame (p : Place) (v : Word) (s : State) :
    p.writeBack v s = { s with regs := (p.writeBack v s).regs, mem := (p.writeBack v s).mem } := by
  cases p <;> rfl

/-- INC and DEC: the place, the flags, `pc`. -/
theorem State.addInPlace_eq (p : Place) (addend : Word) (s : State) :
    s.addInPlace p addend = { p.writeBack (p.read s + addend) s with
      flags := {
        zero := decide (((p.read s).toNat + addend.toNat) % 65536 = 0)
        carry := decide (65535 < (p.read s).toNat + addend.toNat)
        sign := decide (32768 ≤ ((p.read s).toNat + addend.toNat) % 65536) }
      pc := s.pc + 1 } := by
  rw [State.addInPlace, State.setSumFlags_add16, add16_fst]
  cases p <;> rfl

end Sys2Proof.Machine
end

