-- ==== Sys2Proof/Laws/PerInstr.lean ====
section
/-! SUPPORT. Statements made once per instruction. -/

namespace Sys2Proof.Laws

/-- An instruction is put together again from its opcode, mode and operand field: no constructor mixes its fields up. -/
def Rebuild.Statement (i : Instr) : Prop :=
  Instr.ofParts i.opcode i.mode i.operand = i

theorem Rebuild.halt (m : Mode) (k : Word) : Rebuild.Statement (.halt m k) := rfl
theorem Rebuild.load (m : Mode) (k : Word) : Rebuild.Statement (.load m k) := rfl
theorem Rebuild.store (m : Mode) (k : Word) : Rebuild.Statement (.store m k) := rfl
theorem Rebuild.add (m : Mode) (k : Word) : Rebuild.Statement (.add m k) := rfl
theorem Rebuild.sub (m : Mode) (k : Word) : Rebuild.Statement (.sub m k) := rfl
theorem Rebuild.inc (m : Mode) (k : Word) : Rebuild.Statement (.inc m k) := rfl
theorem Rebuild.dec (m : Mode) (k : Word) : Rebuild.Statement (.dec m k) := rfl
theorem Rebuild.xor (m : Mode) (k : Word) : Rebuild.Statement (.xor m k) := rfl
theorem Rebuild.and (m : Mode) (k : Word) : Rebuild.Statement (.and m k) := rfl
theorem Rebuild.or (m : Mode) (k : Word) : Rebuild.Statement (.or m k) := rfl
theorem Rebuild.not (m : Mode) (k : Word) : Rebuild.Statement (.not m k) := rfl
theorem Rebuild.shl (m : Mode) (k : Word) : Rebuild.Statement (.shl m k) := rfl
theorem Rebuild.shr (m : Mode) (k : Word) : Rebuild.Statement (.shr m k) := rfl
theorem Rebuild.nop (m : Mode) (k : Word) : Rebuild.Statement (.nop m k) := rfl
theorem Rebuild.push (m : Mode) (k : Word) : Rebuild.Statement (.push m k) := rfl
theorem Rebuild.pop (m : Mode) (k : Word) : Rebuild.Statement (.pop m k) := rfl
theorem Rebuild.cmp (m : Mode) (k : Word) : Rebuild.Statement (.cmp m k) := rfl
theorem Rebuild.jmp (m : Mode) (k : Word) : Rebuild.Statement (.jmp m k) := rfl
theorem Rebuild.jz (m : Mode) (k : Word) : Rebuild.Statement (.jz m k) := rfl
theorem Rebuild.jnz (m : Mode) (k : Word) : Rebuild.Statement (.jnz m k) := rfl
theorem Rebuild.jc (m : Mode) (k : Word) : Rebuild.Statement (.jc m k) := rfl
theorem Rebuild.jnc (m : Mode) (k : Word) : Rebuild.Statement (.jnc m k) := rfl
theorem Rebuild.ja (m : Mode) (k : Word) : Rebuild.Statement (.ja m k) := rfl
theorem Rebuild.jae (m : Mode) (k : Word) : Rebuild.Statement (.jae m k) := rfl
theorem Rebuild.jb (m : Mode) (k : Word) : Rebuild.Statement (.jb m k) := rfl
theorem Rebuild.jbe (m : Mode) (k : Word) : Rebuild.Statement (.jbe m k) := rfl
theorem Rebuild.read (m : Mode) (k : Word) : Rebuild.Statement (.read m k) := rfl
theorem Rebuild.print (m : Mode) (k : Word) : Rebuild.Statement (.print m k) := rfl

/-- The family's statement for every instruction. -/
theorem rebuild_all (i : Instr) : Instr.ofParts i.opcode i.mode i.operand = i := by
  cases i <;> rfl

end Sys2Proof.Laws
end

