-- ==== Sys2Proof/Laws/Decode.lean ====
section
/-! SUPPORT. The codes of opcodes and modes, and the fields of an encoded word. -/

namespace Sys2Proof

theorem Opcode.mem_all (op : Opcode) : op ∈ Opcode.all := by
  cases op <;> decide

@[simp] theorem Opcode.ofCode_code (op : Opcode) : Opcode.ofCode op.code = some op := by
  cases op <;> decide

/-- A code that names an opcode is that opcode's code. -/
theorem Opcode.code_of_ofCode {c : BitVec 6} {op : Opcode} (h : Opcode.ofCode c = some op) : op.code = c := by
  simpa using List.find?_some h

@[simp] theorem Mode.ofCode_code (m : Mode) : Mode.ofCode m.code = m := by
  cases m <;> decide

@[simp] theorem Mode.code_ofCode (c : BitVec 2) : (Mode.ofCode c).code = c := by
  revert c
  decide

/-- The bits of an encoded word, field by field (30_encoding.md R51). -/
theorem getLsbD_encode (i : Instr) (j : Nat) :
    (encode i).getLsbD j = if j < 16 then i.operand.getLsbD j
      else if j - 16 < 2 then i.mode.code.getLsbD (j - 16) else i.opcode.code.getLsbD (j - 16 - 2) := by
  have outer := BitVec.getLsbD_append (x := i.opcode.code ++ i.mode.code) (y := i.operand) (i := j)
  have inner := BitVec.getLsbD_append (x := i.opcode.code) (y := i.mode.code) (i := j - 16)
  rw [inner] at outer
  refine Eq.trans outer ?_
  by_cases h : j < 16 <;> by_cases h2 : j - 16 < 2 <;> simp [h, h2]

@[simp] theorem opcodeField_encode (i : Instr) : opcodeField (encode i) = i.opcode.code := by
  apply BitVec.eq_of_getLsbD_eq
  intro j hj
  rw [opcodeField, BitVec.getLsbD_extractLsb', getLsbD_encode]
  rw [if_neg (by omega), if_neg (by omega), show 18 + j - 16 - 2 = j by omega]
  simp [hj]

@[simp] theorem modeField_encode (i : Instr) : modeField (encode i) = i.mode.code := by
  apply BitVec.eq_of_getLsbD_eq
  intro j hj
  rw [modeField, BitVec.getLsbD_extractLsb', getLsbD_encode]
  rw [if_neg (by omega), if_pos (by omega), show 16 + j - 16 = j by omega]
  simp [hj]

@[simp] theorem operandField_encode (i : Instr) : operandField (encode i) = i.operand := by
  apply BitVec.eq_of_getLsbD_eq
  intro j hj
  rw [operandField, BitVec.getLsbD_extractLsb', getLsbD_encode]
  simp [hj]

@[simp] theorem Instr.opcode_ofParts (op : Opcode) (m : Mode) (k : Word) : (Instr.ofParts op m k).opcode = op := by
  cases op <;> rfl

@[simp] theorem Instr.mode_ofParts (op : Opcode) (m : Mode) (k : Word) : (Instr.ofParts op m k).mode = m := by
  cases op <;> rfl

@[simp] theorem Instr.operand_ofParts (op : Opcode) (m : Mode) (k : Word) : (Instr.ofParts op m k).operand = k := by
  cases op <;> rfl

/-- Everything decoding can answer. -/
theorem decode_cases (w : InstrWord) :
    (∃ op, Opcode.ofCode (opcodeField w) = some op ∧
      decode w = .ok (Instr.ofParts op (Mode.ofCode (modeField w)) (operandField w))) ∨
    (Opcode.ofCode (opcodeField w) = none ∧ decode w = .error .illegalOpcode) := by
  unfold decode
  split
  · next op h => exact .inl ⟨op, h, rfl⟩
  · next h => exact .inr ⟨h, rfl⟩

end Sys2Proof
end

