-- ==== Sys2Proof/Laws/Assembler.lean ====
section
/-! SUPPORT. The assembler's contract, function by function: everything each can answer. -/

namespace Sys2Proof.Machine

/-- A register name's id is one of 1 to 5. -/
theorem registerId_bounds {name : Token} {id : Word} (h : registerId name = some id) : 1 ≤ id.toNat ∧ id.toNat ≤ 5 := by
  unfold registerId at h
  split_ifs at h <;> cases h <;> decide

/-- An operand token that gives a mode naming a register gives the id of one: only two of the six shapes do. -/
theorem classify_bounds {labels : LabelTable} {t : Token} {m : Mode} {k : Word} (h : classify labels t = some (m, k))
    (hm : m.namesRegister = true) : 1 ≤ k.toNat ∧ k.toNat ≤ 5 := by
  rw [classify, Option.join_eq_some_iff, List.findSome?_eq_some_iff] at h
  obtain ⟨before, shape, after, hs, hshape, _⟩ := h
  have hmem : shape ∈ before ++ shape :: after := List.mem_append_right _ (List.mem_cons_self ..)
  rw [← hs] at hmem
  simp only [List.mem_cons, List.not_mem_nil, or_false] at hmem
  change shape = some (some (m, k)) at hshape
  subst hshape
  rcases hmem with h | h | h | h | h | h
  · obtain ⟨id, hid, e⟩ := Option.map_eq_some_iff.mp h.symm
    obtain ⟨name, _, hr⟩ := Option.bind_eq_some_iff.mp hid
    cases e
    exact registerId_bounds hr
  · unfold directShape at h
    split at h
    · obtain ⟨_, _, e⟩ := Option.map_eq_some_iff.mp h.symm
      obtain ⟨_, _, e⟩ := Option.map_eq_some_iff.mp e
      cases e
      cases hm
    · cases h
  · obtain ⟨id, hid, e⟩ := Option.map_eq_some_iff.mp h.symm
    cases e
    exact registerId_bounds hid
  all_goals
    obtain ⟨_, _, e⟩ := Option.map_eq_some_iff.mp h.symm
    obtain ⟨_, _, e⟩ := Option.map_eq_some_iff.mp e
    cases e
    cases hm

/-- The word of an instruction line is that of an instruction in a legal mode, with a register id where the mode names one
and a zero operand where the opcode has none. -/
theorem assembleLine_ok {legal : LegalModes} {labels : LabelTable} {line : List Token} {w : InstrWord}
    (h : assembleLine legal labels line = .ok w) : ∃ i : Instr, w = encode i ∧ i.wfUnder legal = true := by
  have done : ∀ (op : Opcode) (operand : Mode × Word), assembleAs legal op operand = .ok w →
      (operand.1.namesRegister = true → 1 ≤ operand.2.toNat ∧ operand.2.toNat ≤ 5) →
      (op.takesOperand || operand.2 == 0) = true → ∃ i : Instr, w = encode i ∧ i.wfUnder legal = true := by
    intro op operand h hr ho
    unfold assembleAs at h
    split at h
    · next hl =>
      refine ⟨Instr.ofParts op operand.1 operand.2, by cases h; rfl, ?_⟩
      simp only [Instr.wfUnder, Instr.modeLegal, Instr.registerNamed, Instr.operandUsed, Instr.opcode_ofParts,
        Instr.mode_ofParts, Instr.operand_ofParts, hl, ho, Bool.true_and, Bool.and_true]
      cases hm : operand.1.namesRegister with
      | false => rfl
      | true => simp [hr hm]
    · cases h
  unfold assembleLine at h
  split at h
  · cases h
  · split at h
    · exact done _ _ h (fun hm => by cases hm) (by simp)
    · cases h
  · split at h
    · split_ifs at h with ho
      split at h
      · next hc => exact done _ _ h (classify_bounds hc) (by simp [ho])
      · cases h
    · cases h
  · cases h

/-- Every word of pass 2 is the word of an instruction line. -/
theorem pass2_ok {legal : LegalModes} {labels : LabelTable} {lines : List (List Token)} {prog : List InstrWord}
    (h : pass2 legal labels lines = .ok prog) {w : InstrWord} (hw : w ∈ prog) :
    ∃ line ∈ lines, assembleLine legal labels line = .ok w := by
  induction lines generalizing prog with
  | nil =>
    cases h
    cases hw
  | cons line rest ih =>
    have later : ∀ {prog}, pass2 legal labels rest = .ok prog → w ∈ prog →
        ∃ l ∈ line :: rest, assembleLine legal labels l = .ok w := fun h hw =>
      (ih h hw).imp fun _ hl => ⟨List.mem_cons_of_mem _ hl.1, hl.2⟩
    unfold pass2 at h
    split_ifs at h with hskip
    · exact later h hw
    · split at h
      · cases h
      · next first hfirst =>
        split at h
        · next hrest =>
          cases h
          rcases List.mem_cons.mp hw with rfl | hw
          · exact ⟨line, List.mem_cons_self .., hfirst⟩
          · exact later hrest hw
        · cases h

end Sys2Proof.Machine
end

