-- ==== Sys2Proof/Laws/Exec.lean ====
section
/-! SUPPORT. Everything an instruction can do, said once: its effect or its fault, and the ways it stops. -/

namespace Sys2Proof.Machine

/-- INC and DEC before the flags are worked out. -/
theorem State.addInPlace_def (p : Place) (a : Word) (s : State) :
    s.addInPlace p a = { p.writeBack (add16 (p.read s) a).1 s with
      flags := (s.flags.setCarry (add16 (p.read s) a).2).setZS (add16 (p.read s) a).1
      pc := s.pc + 1 } := by
  cases p <;> rfl

/-- What an instruction that passes its checks and names the place `p` does to each part of the state. -/
structure Effect (i : Instr) (p : Place) (s t : State) : Prop where
  par : t.par = s.par
  regs : ∀ r, (r = .a → i.opcode ∉ [.load, .add, .sub, .xor, .and, .or, .not]) →
    (i.opcode ∈ [.store, .pop, .read, .inc, .dec, .shl, .shr] → p ≠ .register r) → t.reg r = s.reg r
  cells : ∀ b, (i.opcode ∈ [.store, .pop, .read, .inc, .dec, .shl, .shr] → p ≠ .cell b) → t.memRead b = s.memRead b
  memWf : Memory.wf s.mem → Memory.wf t.mem
  flags : t.flags = s.flags ∨
    (i.opcode ∈ [.xor, .and, .or, .not, .shr] ∧ ∃ r, t.flags = s.flags.setZS r) ∨
    (i.opcode ∈ [.add, .sub, .cmp, .inc, .dec, .shl] ∧ ∃ r c, t.flags = (s.flags.setCarry c).setZS r)
  stack : i.opcode ≠ .push → i.opcode ≠ .pop → t.stack = s.stack
  out : if i.opcode = .print then t.out = s.out ++ [p.read s] else t.out = s.out
  input : if i.opcode = .read then t.inpos = s.inpos + 1 ∧ ∃ v, s.par.input.wordAt s.inpos = some v ∧ p.read t = v
    else t.inpos = s.inpos
  run : t.run = if i.opcode = .halt then .halted else s.run
  pc : t.pc = s.pc + 1 ∨
    i.opcode ∈ [.jmp, .jz, .jnz, .jc, .jnc, .ja, .jae, .jb, .jbe] ∧ t.pc = i.operand.toNat / 3

/-- What makes an instruction raise a fault of each kind: the check that fails after the ones before it have passed. -/
def faultGround (i : Instr) (s : State) : FaultKind → Prop
  | .illegalOpcode => False
  | .illegalMode => s.legal i.opcode i.mode = false
  | .unknownRegister => s.legal i.opcode i.mode = true ∧ i.registerNamed = false
  | .stackUnderflow => Executable i s ∧ i.opcode = .pop ∧ s.stack = []

/-- Everything an instruction can do when it answers a next state. -/
theorem exec_next {i : Instr} {s t : State} (h : exec i s = .next t) :
    (∃ kind, faultGround i s kind ∧ t = s.raise kind (encode i)) ∨
      (Executable i s ∧ ∃ p, placeOf i.mode i.operand s = some p ∧ Effect i p s t) := by
  have wbr : ∀ (p : Place) v r u, p ≠ .register r → (p.writeBack v u).reg r = State.reg r u := by
    intro p v r u h; cases p with
    | immediate => rfl
    | register x => exact State.reg_setReg_other _ _ (fun e => h (by rw [e]))
    | cell => rfl
  have wbm : ∀ (p : Place) v b u, p ≠ .cell b → (p.writeBack v u).memRead b = State.memRead b u := by
    intro p v r u h; cases p with
    | immediate => rfl
    | register x => rfl
    | cell x => exact State.memRead_memWrite_other _ _ (fun e => h (by rw [e]))
  have wbw : ∀ (p : Place) v u, Memory.wf u.mem → Memory.wf (p.writeBack v u).mem := by
    intro p v u h; cases p with
    | immediate => exact h
    | register x => exact h
    | cell x => exact State.memWrite_wf _ _ h
  have saaS : ∀ (p : Place) v (u w : State), storeAndAdvance p v u = .next w →
      w = (p.writeBack v u).advance ∧ p.read w = v := by
    intro p v u w h
    rcases storeAndAdvance_cases p v u with ⟨_, _, e⟩ | ⟨_, rfl, e⟩ | ⟨_, rfl, e⟩ <;> rw [e] at h <;> cases h <;>
      refine ⟨rfl, ?_⟩ <;> simp [Place.read]
  have wbf := Place.writeBack_frame
  cases i
  all_goals
    simp only [exec, execHalt, execLoad, execStore, execAdd, execSub, execInc, execDec, execXor, execAnd, execOr, execNot,
      execShl, execShr, execNop, execPush, execPop, execCmp, execJmp, execJz, execJnz, execJc, execJnc, execJa, execJae,
      execJb, execJbe, execRead, execPrint] at h
    rcases admitted_next h with ⟨p, he, hp, h⟩ | ⟨hh1, rfl⟩ | ⟨hh1, hh2, rfl⟩
    rotate_left
    · exact .inl ⟨.illegalMode, hh1, rfl⟩
    · exact .inl ⟨.unknownRegister, ⟨hh1, hh2⟩, rfl⟩
  all_goals simp only [Instr.mode, Instr.operand] at *
  all_goals try
    (cases h; refine .inr ⟨he, p, hp, rfl, ?_, ?_, ?_, ?_, ?_, ?_, ?_, ?_, ?_⟩
     · intro r h1 h2; first | rfl | (cases r <;> first | rfl | exact absurd (h1 rfl) (by simp [Instr.opcode]))
     · intro b hb; rfl
     · exact id
     · first
        | exact .inl rfl
        | exact .inr (.inl ⟨by simp [Instr.opcode], _, rfl⟩)
        | exact .inr (.inr ⟨by simp [Instr.opcode], _, _, rfl⟩)
     · intro h1 h2; first | rfl | exact absurd rfl h1
     · rfl
     · rfl
     · rfl
     · left; rfl)
  all_goals try
    (simp only [State.jumpIf_eq] at h; cases h; refine .inr ⟨he, p, hp, rfl, ?_, ?_, ?_, ?_, ?_, ?_, ?_, ?_, ?_⟩
     · intro r h1 h2; rfl
     · intro b hb; rfl
     · exact id
     · exact .inl rfl
     · intro h1 h2; rfl
     · rfl
     · rfl
     · rfl
     · dsimp only; split
       · right; exact ⟨by simp [Instr.opcode], rfl⟩
       · left; rfl)
  case inc | dec =>
    rw [State.addInPlace_def, wbf] at h
    cases h; refine .inr ⟨he, p, hp, rfl, ?_, ?_, ?_, ?_, ?_, ?_, ?_, ?_, ?_⟩
    · intro r h1 h2; exact wbr p _ r s (h2 (by simp [Instr.opcode]))
    · intro b hb; exact wbm p _ b s (hb (by simp [Instr.opcode]))
    · exact wbw p _ s
    · right; right; exact ⟨by simp [Instr.opcode], _, _, rfl⟩
    · intros; rfl
    · rfl
    · rfl
    · rfl
    · left; rfl
  case shl | shr =>
    rw [wbf] at h
    cases h; refine .inr ⟨he, p, hp, rfl, ?_, ?_, ?_, ?_, ?_, ?_, ?_, ?_, ?_⟩
    · intro r h1 h2; exact wbr p _ r s (h2 (by simp [Instr.opcode]))
    · intro b hb; exact wbm p _ b s (hb (by simp [Instr.opcode]))
    · exact wbw p _ s
    · first | exact .inr (.inl ⟨by simp [Instr.opcode], _, rfl⟩) | exact .inr (.inr ⟨by simp [Instr.opcode], _, _, rfl⟩)
    · intros; rfl
    · rfl
    · rfl
    · rfl
    · left; rfl
  case jmp =>
    cases h; refine .inr ⟨he, p, hp, rfl, ?_, ?_, ?_, ?_, ?_, ?_, ?_, ?_, ?_⟩
    · intro r h1 h2; rfl
    · intro b hb; rfl
    · exact id
    · exact .inl rfl
    · intros; rfl
    · rfl
    · rfl
    · rfl
    · right; exact ⟨by simp [Instr.opcode], rfl⟩
  case store =>
    obtain ⟨rfl, _⟩ := saaS _ _ _ _ h
    rw [wbf]
    refine .inr ⟨he, p, hp, rfl, ?_, ?_, ?_, ?_, ?_, ?_, ?_, ?_, ?_⟩
    · intro r h1 h2; exact wbr p _ r s (h2 (by simp [Instr.opcode]))
    · intro b hb; exact wbm p _ b s (hb (by simp [Instr.opcode]))
    · exact wbw p _ s
    · exact .inl rfl
    · intros; rfl
    · rfl
    · rfl
    · rfl
    · left; rfl
  case pop =>
    revert h; split
    · next v u hu =>
      intro h
      obtain ⟨rfl, _⟩ := saaS _ _ _ _ h
      obtain ⟨_, hu⟩ := State.pop_eq_some hu
      rw [wbf]
      have e1 : u.regs = s.regs := by rw [hu]
      have e2 : u.mem = s.mem := by rw [hu]
      refine .inr ⟨he, p, hp, ?_, ?_, ?_, ?_, ?_, ?_, ?_, ?_, ?_, ?_⟩
      · change u.par = s.par; rw [hu]
      · intro r h1 h2; refine (wbr p _ r u (h2 (by simp [Instr.opcode]))).trans ?_; cases r <;> simp [State.reg, e1]
      · intro b hb; refine (wbm p _ b u (hb (by simp [Instr.opcode]))).trans ?_; simp [State.memRead, e2]
      · intro hw; exact wbw p _ u (e2 ▸ hw)
      · left; change u.flags = s.flags; rw [hu]
      · intro _ h2; exact absurd rfl h2
      · change u.out = s.out; rw [hu]
      · change u.inpos = s.inpos; rw [hu]
      · change u.run = s.run; rw [hu]
      · left; change u.pc + 1 = s.pc + 1; rw [hu]
    · next hn =>
      intro h; cases h; exact .inl ⟨.stackUnderflow, ⟨he, rfl, State.pop_eq_none.mp hn⟩, rfl⟩
  case read =>
    revert h; split
    · next v u hu =>
      intro h
      obtain ⟨rfl, hpr⟩ := saaS _ _ _ _ h
      obtain ⟨hv, rfl⟩ := State.takeInput_eq_some hu
      rw [wbf] at hpr ⊢
      refine .inr ⟨he, p, hp, rfl, ?_, ?_, ?_, ?_, ?_, ?_, ?_, ?_, ?_⟩
      · intro r h1 h2; exact (wbr p _ r _ (h2 (by simp [Instr.opcode])))
      · intro b hb; exact (wbm p _ b _ (hb (by simp [Instr.opcode])))
      · intro hw; exact wbw p _ _ hw
      · exact .inl rfl
      · intros; rfl
      · rfl
      · exact ⟨rfl, _, hv, hpr⟩
      · rfl
      · left; rfl
    · intro h; cases h

/-- Every way an instruction can stop: a store to an Immediate, or the input used up. -/
theorem exec_fault {i : Instr} {s : State} {f : Fault} (h : exec i s = .fault f) :
    (f = .storeToImmediate ∧ i.mode = .immediate ∧ Executable i s ∧ i.opcode ∈ [Opcode.store, .pop, .read]) ∨
      (f = .inputExhausted ∧ i.opcode = .read ∧ Executable i s ∧ s.par.input.wordAt s.inpos = none) := by
  cases i
  all_goals
    simp only [exec, execHalt, execLoad, execStore, execAdd, execSub, execInc, execDec, execXor, execAnd, execOr, execNot,
      execShl, execShr, execNop, execPush, execPop, execCmp, execJmp, execJz, execJnz, execJc, execJnc, execJa, execJae,
      execJb, execJbe, execRead, execPrint] at h
    obtain ⟨p, he, hp, h⟩ := admitted_fault h
  all_goals try cases h
  · rcases storeAndAdvance_cases p (s.reg .a) s with ⟨x, hx, e⟩ | ⟨_, _, e⟩ | ⟨_, _, e⟩ <;> rw [e] at h <;> cases h
    exact .inl ⟨rfl, (placeOf_immediate_iff hp).mp ⟨x, hx⟩, he, by simp [Instr.opcode]⟩
  · revert h; split
    · next v u hu =>
      intro h
      rcases storeAndAdvance_cases p v u with ⟨x, hx, e⟩ | ⟨_, _, e⟩ | ⟨_, _, e⟩ <;> rw [e] at h <;> cases h
      exact .inl ⟨rfl, (placeOf_immediate_iff hp).mp ⟨x, hx⟩, he, by simp [Instr.opcode]⟩
    · intro h; cases h
  · revert h; split
    · next v u hu =>
      intro h
      rcases storeAndAdvance_cases p v u with ⟨x, hx, e⟩ | ⟨_, _, e⟩ | ⟨_, _, e⟩ <;> rw [e] at h <;> cases h
      exact .inl ⟨rfl, (placeOf_immediate_iff hp).mp ⟨x, hx⟩, he, by simp [Instr.opcode]⟩
    · next hn => intro h; cases h; exact .inr ⟨rfl, rfl, he, State.takeInput_eq_none.mp hn⟩

/-- No instruction is refused. -/
theorem exec_not_refused (i : Instr) (s : State) (r : Refusal) : exec i s ≠ .refused r := by
  intro h
  have key : ∀ (i : Instr) (hd : Place → Result), admitted i s hd = .refused r → ∃ p, hd p = .refused r := by
    intro i hd h
    unfold admitted at h
    split at h
    · exact ⟨_, h⟩
    · cases h
  have st : ∀ p v u, storeAndAdvance p v u ≠ .refused r := by
    intro p v u h
    rcases storeAndAdvance_cases p v u with ⟨x, hx, e⟩ | ⟨_, _, e⟩ | ⟨_, _, e⟩ <;> rw [e] at h <;> cases h
  cases i
  all_goals
    simp only [exec, execHalt, execLoad, execStore, execAdd, execSub, execInc, execDec, execXor, execAnd, execOr, execNot,
      execShl, execShr, execNop, execPush, execPop, execCmp, execJmp, execJz, execJnz, execJc, execJnc, execJa, execJae,
      execJb, execJbe, execRead, execPrint] at h
    obtain ⟨p, h⟩ := key _ _ h
  all_goals try cases h
  · exact st _ _ _ h
  · revert h; split
    · exact st _ _ _
    · intro h; cases h
  · revert h; split
    · exact st _ _ _
    · intro h; cases h

end Sys2Proof.Machine
end

