-- ==== Sys2Proof/Laws/Step.lean ====
section
/-! SUPPORT. Everything fetch and a step can do. -/

namespace Sys2Proof.Machine

/-- Fetch answers a word exactly when the engine is RUNNING and the word is `PROG[pc]`. -/
theorem State.fetch_ok {s : State} {w : InstrWord} :
    s.fetch = .ok w ↔ s.run = .running ∧ s.par.prog[s.pc]? = some w := by
  unfold State.fetch
  cases s.run with
  | halted => simp
  | faulted => simp
  | running => cases h : s.par.prog[s.pc]? <;> simp

/-- A step that answers a next state was taken RUNNING inside the program: it ran the decoded instruction, or raised
IllegalOpcode on a word that is none. -/
theorem step_next {s t : State} (h : step s = .next t) :
    ∃ w, s.run = .running ∧ s.par.prog[s.pc]? = some w ∧
      ((∃ i, decode w = .ok i ∧ exec i s = .next t) ∨
        (decode w = .error .illegalOpcode ∧ t = s.raise .illegalOpcode w)) := by
  unfold step at h
  cases hf : s.fetch with
  | error f => simp [hf] at h
  | ok w =>
    obtain ⟨hr, hw⟩ := State.fetch_ok.mp hf
    refine ⟨w, hr, hw, ?_⟩
    cases hd : decode w with
    | ok i => exact .inl ⟨i, rfl, by simpa [hf, hd] using h⟩
    | error e =>
      cases e
      exact .inr ⟨rfl, by simpa [hf, hd, raiseUndecoded, eq_comm] using h⟩

/-- What a step is once the fetched word is known. -/
theorem step_of_fetch {s : State} {w : InstrWord} (hr : s.run = .running) (hw : s.par.prog[s.pc]? = some w) :
    step s = match decode w with
      | .ok i => exec i s
      | .error e => raiseUndecoded e w s := by
  unfold step
  cases hd : decode w <;> simp only [State.fetch_ok.mpr ⟨hr, hw⟩, hd]

/-- No steps lead to the state itself and nowhere else. -/
theorem runsTo_zero {s t : State} : RunsTo s 0 t ↔ s = t := by
  constructor
  · intro h
    cases h
    rfl
  · rintro rfl
    rfl

/-- A run of one step more is a step and then the rest of the run. -/
theorem runsTo_succ {s t : State} {n : Nat} : RunsTo s (n + 1) t ↔ ∃ u, step s = .next u ∧ RunsTo u n t := by
  constructor
  · intro h
    unfold RunsTo at h
    simp only [Host.Core.run] at h
    split at h
    · next u hu => exact ⟨u, hu, h⟩
    · cases h
    · cases h
  · rintro ⟨u, hs, hr⟩
    have hu : Sys2Proof.core.step s = .next u := hs
    unfold RunsTo
    simp only [Host.Core.run]
    rw [hu]
    exact hr

end Sys2Proof.Machine
end

