-- ==== Sys2Proof/Tests/Slice0.lean ====
section
/-! SUPPORT. Tests and witnesses. Expected values come from spec/95_test_vectors.md and from the rules of spec/ named
beside them. -/

namespace Sys2Proof.Tests

open Sys2Proof Sys2Proof.Machine

/-! ### Helpers -/

/-- The reset state of the vectors: default table, no program, no input. -/
def start : State := State.start ⟨[], ⟨[], .ended⟩, defaultLegalModes⟩

/-- A state with something in every space. -/
def busy : State :=
  { start with
    regs := ⟨0x0005, 0x0010, 0xFFFF, 0x8000, 0x0001⟩
    mem := [(0x0010, 0x0077), (0xFFFF, 0x00FF)]
    stack := [0x0001, 0x0002]
    par := ⟨[], ⟨[0x0041], .ended⟩, defaultLegalModes⟩ }

/-- The state with `w` as the program. -/
def holding (w : InstrWord) (s : State) : State :=
  { s with par := { s.par with prog := [w] } }

/-- One step with `w` as the program. -/
def run1 (w : InstrWord) (s : State) : Option State := nextState? (step (holding w s))

/-- The start state with A. -/
def withA (a : Word) : State := { start with regs := ⟨a, 0, 0, 0, 0⟩ }

/-- The start state with A and B. -/
def withAB (a b : Word) : State := { start with regs := ⟨a, b, 0, 0, 0⟩ }

/-- The state with the Carry flag set. -/
def carrySet (s : State) : State := { s with flags := ⟨false, true, false⟩ }

/-- A table that lets every opcode have every mode. -/
def openTable : LegalModes := Opcode.all.map fun op => ⟨op, anyMode⟩

/-! ### Decoding: every constructor by a word written out from 30_encoding.md R51 to R53 -/

theorem test_decode_words_01_to_07 :
    ∀ row ∈ [((0b000001_00_0000000000000000 : InstrWord), Instr.halt .immediate 0),
      (0b000010_00_0000000000000101, .load .immediate 5), (0b000011_11_0000000100000000, .store .direct 0x0100),
      (0b000100_10_0000000000000010, .add .indirect 2), (0b000101_01_0000000000000001, .sub .register 1),
      (0b000110_01_0000000000000010, .inc .register 2), (0b000111_11_1111111111111111, .dec .direct 0xFFFF)],
    decode row.1 = .ok row.2 := by decide

theorem test_decode_words_08_to_0E :
    ∀ row ∈ [((0b001000_00_0000111100001111 : InstrWord), Instr.xor .immediate 0x0F0F),
      (0b001001_00_1111000000000000, .and .immediate 0xF000), (0b001010_10_0000000000000010, .or .indirect 2),
      (0b001011_01_0000000000000010, .not .register 2), (0b001100_01_0000000000000010, .shl .register 2),
      (0b001101_11_0000000100000000, .shr .direct 0x0100), (0b001110_00_0000000000000000, .nop .immediate 0)],
    decode row.1 = .ok row.2 := by decide

theorem test_decode_words_0F_to_15 :
    ∀ row ∈ [((0b001111_01_0000000000000010 : InstrWord), Instr.push .register 2),
      (0b010000_01_0000000000000011, .pop .register 3), (0b010001_00_0000000001100001, .cmp .immediate 0x0061),
      (0b010010_00_0000000000010010, .jmp .immediate 0x0012), (0b010011_00_0000000000000110, .jz .immediate 6),
      (0b010100_00_0000000000000110, .jnz .immediate 6), (0b010101_00_0000000000001001, .jc .immediate 9)],
    decode row.1 = .ok row.2 := by decide

theorem test_decode_words_16_to_1C :
    ∀ row ∈ [((0b010110_00_0000000000001001 : InstrWord), Instr.jnc .immediate 9),
      (0b010111_00_0000000000001111, .ja .immediate 15), (0b011000_00_0000000000001111, .jae .immediate 15),
      (0b011001_00_0000000000001111, .jb .immediate 15), (0b011010_00_0000000000001111, .jbe .immediate 15),
      (0b011011_10_0000000000000010, .read .indirect 2), (0b011100_01_0000000000000001, .print .register 1)],
    decode row.1 = .ok row.2 := by decide

theorem test_decode_refuses_unmapped_opcodes :
    [(0x000000 : InstrWord), 0x740000, 0xFC0000, 0xFFFFFF].map decode =
      List.replicate 4 (.error .illegalOpcode) := by decide

theorem test_encode_as_in_R67 :
    ∀ row ∈ [((0x080005 : InstrWord), Instr.load .immediate 5), (0x100003, .add .immediate 3), (0x040000, .halt .immediate 0),
      (0x0F0100, .store .direct 0x0100), (0x710001, .print .register 1)], encode row.2 = row.1 := by decide

theorem test_decodeTableWord_masks : decodeTableWord 24 0x3D0002 = some (.push .register 2) := by decide

/-! ### WellFormed: an ill-formed term for each check, which the check refuses -/

theorem test_modeLegal_refuses :
    ∀ i ∈ [Instr.store .immediate 5, .pop .immediate 1, .read .immediate 0, .shl .immediate 2, .shr .immediate 2]
      ++ [.halt .register 1, .nop .indirect 1, .jmp .direct 6, .jbe .register 1],
    i.modeLegal defaultLegalModes = false ∧ i.wf = false := by decide

theorem test_registerNamed_refuses :
    ∀ i ∈ [Instr.load .register 0, .load .register 6, .add .indirect 9, .store .register 0xFFFF],
    i.registerNamed = false ∧ i.wf = false := by decide

theorem test_operandUsed_refuses :
    ∀ i ∈ [Instr.halt .immediate 5, .nop .immediate 0xFFFF], i.operandUsed = false ∧ i.wf = false := by decide

theorem test_wfUnder_narrow_table :
    (Instr.push .immediate 1).wf = true ∧ (Instr.push .immediate 1).wfUnder narrowLegalModes = false := by decide

theorem test_wf_accepts_neighbours :
    ∀ i ∈ [Instr.halt .immediate 0, .nop .immediate 0, .store .register 5, .shl .register 2, .jmp .immediate 1, .load .register 5],
    i.wf = true := by decide

/-- 30_encoding.md R56: 38 of the 112 pairs are illegal, 74 legal. -/
theorem test_default_table_has_74_pairs :
    (Opcode.all.flatMap fun op => anyMode.filter (legalIn defaultLegalModes op)).length = 74 := by decide

/-- 93_implementation_defined.md G3: 65 legal of 112. -/
theorem test_narrow_table_has_65_pairs :
    (Opcode.all.flatMap fun op => anyMode.filter (legalIn narrowLegalModes op)).length = 65 := by decide

/-! ### One step of each instruction, from the vectors of 95_test_vectors.md -/

theorem test_load_indirect_through_a :
    (run1 0x0A0001 { withA 0x0010 with mem := [(0x0010, 0x0099)] }).map (·.regs.a) = some 0x0099 := by decide
theorem test_load_zero_sets_no_flag :
    (run1 0x080000 (withA 5)).map (fun t => (t.regs.a, t.flags.zero)) = some (0, false) := by decide
theorem test_store_indirect_top_of_memory :
    (run1 0x0E0002 (withAB 7 0xFFFF)).map (·.mem) = some [(0xFFFF, 7)] := by decide
theorem test_store_indirect_through_a :
    (run1 0x0E0001 (withA 0x0022)).map (·.memRead 0x0022) = some 0x0022 := by decide
theorem test_push_appends : (run1 0x3C00FF { start with stack := [1] }).map (·.stack) = some [1, 0x00FF] := by decide
theorem test_push_unmapped_cell : (run1 0x3F0010 start).map (·.stack) = some [0] := by decide
theorem test_pop_takes_newest :
    (run1 0x410003 { start with stack := [1, 2] }).map (fun t => (t.regs.c, t.stack)) = some (2, [1]) := by decide
theorem test_pop_empty_after_register_check :
    (run1 0x410009 start).map (·.run) = some (.faulted .unknownRegister 3 0 0x410009) := by decide
theorem test_add_wraps :
    (run1 0x100001 (withA 0xFFFF)).map (fun t => (t.regs.a, t.flags)) = some (0, ⟨true, true, false⟩) := by decide
theorem test_add_a_to_itself :
    (run1 0x110001 (withA 0xC001)).map (fun t => (t.regs.a, t.flags)) = some (0x8002, ⟨false, true, true⟩) := by decide
theorem test_sub_zero_clears_carry :
    (run1 0x140000 (carrySet (withA 0x1234))).map (fun t => (t.regs.a, t.flags)) =
      some (0x1234, ⟨false, false, false⟩) := by decide
theorem test_sub_8000 :
    (run1 0x148000 (withA 0x8000)).map (fun t => (t.regs.a, t.flags)) = some (0, ⟨true, true, false⟩) := by decide
theorem test_inc_indirect_keeps_register :
    (run1 0x1A0002 { withAB 0 0x0100 with mem := [(0x0100, 0x00FF)] }).map (fun t => (t.mem, t.regs.b)) =
      some ([(0x0100, 0x0100)], 0x0100) := by decide
theorem test_inc_immediate_sets_flags_only :
    run1 0x18FFFF start = some { holding 0x18FFFF start with flags := ⟨true, true, false⟩, pc := 1 } := by decide
theorem test_dec_unmapped_cell :
    (run1 0x1F0100 start).map (fun t => (t.mem, t.flags)) = some ([(0x0100, 0xFFFF)], ⟨false, false, true⟩) := by decide
theorem test_dec_to_zero_unlists_cell :
    (run1 0x1F0100 { start with mem := [(0x0100, 1)] }).map (fun t => (t.mem, t.flags)) =
      some ([], ⟨true, true, false⟩) := by decide
theorem test_xor_keeps_carry :
    (run1 0x210001 (carrySet (withA 0xBEEF))).map (fun t => (t.regs.a, t.flags)) = some (0, ⟨true, true, false⟩) := by decide
theorem test_and_sign :
    (run1 0x24F000 (withA 0x8F0F)).map (fun t => (t.regs.a, t.flags)) = some (0x8000, ⟨false, false, true⟩) := by decide
theorem test_or_indirect :
    (run1 0x2A0002 { withAB 0x00F0 0x0020 with mem := [(0x0020, 0x0F00)] }).map (·.regs.a) = some 0x0FF0 := by decide
theorem test_not_writes_a_not_b :
    (run1 0x2D0002 (carrySet (withAB 0x1111 0x00FF))).map (fun t => (t.regs.a, t.regs.b, t.flags)) =
      some (0xFF00, 0x00FF, ⟨false, true, true⟩) := by decide
theorem test_shl_clears_carry :
    (run1 0x310002 (carrySet (withAB 0 0x4000))).map (fun t => (t.regs.b, t.flags)) =
      some (0x8000, ⟨false, false, true⟩) := by decide
theorem test_shl_top_bit :
    (run1 0x310002 (withAB 0 0x8000)).map (fun t => (t.regs.b, t.flags)) = some (0, ⟨true, true, false⟩) := by decide
theorem test_shr_keeps_carry :
    (run1 0x350002 (carrySet (withAB 0 1))).map (fun t => (t.regs.b, t.flags)) = some (0, ⟨true, true, false⟩) := by decide
theorem test_shr_clears_sign :
    (run1 0x350002 { withAB 0 0x8001 with flags := ⟨false, false, true⟩ }).map (fun t => (t.regs.b, t.flags)) =
      some (0x4000, ⟨false, false, false⟩) := by decide
theorem test_cmp_far_apart :
    (run1 0x440001 (withA 0x9000)).map (fun t => (t.regs.a, t.flags)) = some (0x9000, ⟨false, true, true⟩) := by decide
theorem test_cmp_ffff :
    (run1 0x44FFFF start).map (·.flags) = some ⟨false, false, false⟩ := by decide

/-- V-JUMP: each jump at index 0 with operand 000F, over the flags `---`, `--C`, `Z--`, `Z-C`, `-S-`, `-SC`. -/
def jumpRow (w : InstrWord) : List (Option Nat) :=
  [⟨false, false, false⟩, ⟨false, true, false⟩, ⟨true, false, false⟩, ⟨true, true, false⟩, ⟨false, false, true⟩,
    ⟨false, true, true⟩].map fun f => (run1 w { start with flags := f }).map (·.pc)

theorem test_jmp_row : jumpRow 0x48000F = [5, 5, 5, 5, 5, 5].map some := by decide
theorem test_jz_row : jumpRow 0x4C000F = [1, 1, 5, 5, 1, 1].map some := by decide
theorem test_jnz_row : jumpRow 0x50000F = [5, 5, 1, 1, 5, 5].map some := by decide
theorem test_jc_row : jumpRow 0x54000F = [1, 5, 1, 5, 1, 5].map some := by decide
theorem test_jnc_row : jumpRow 0x58000F = [5, 1, 5, 1, 5, 1].map some := by decide
theorem test_ja_row : jumpRow 0x5C000F = [5, 5, 1, 1, 1, 1].map some := by decide
theorem test_jae_row : jumpRow 0x60000F = [5, 5, 5, 5, 1, 1].map some := by decide
theorem test_jb_row : jumpRow 0x64000F = [1, 1, 1, 1, 5, 5].map some := by decide
theorem test_jbe_row : jumpRow 0x68000F = [1, 1, 5, 5, 5, 5].map some := by decide
theorem test_jumpTarget_rounds_down :
    [0x0000, 0x0002, 0x0003, 0x0008, 0x0012, 0xFFFD, 0xFFFF].map jumpTarget = [0, 0, 1, 2, 6, 21844, 21845] := by decide

theorem test_halt_junk_operand :
    (run1 0x041234 start).map (fun t => (t.pc, t.run)) = some (1, .halted) := by decide
theorem test_nop : run1 0x380000 busy = some { holding 0x380000 busy with pc := 1 } := by decide
theorem test_read_indirect :
    (run1 0x6E0002 busy).map (fun t => (t.memRead 0x0010, t.inpos)) = some (0x0041, 1) := by decide
theorem test_read_checks_before_consuming :
    (run1 0x6D0000 busy).map (fun t => (t.run, t.inpos)) =
      some (.faulted .unknownRegister 3 0 0x6D0000, 0) := by decide
theorem test_print_direct : (run1 0x730010 busy).map (·.out) = some [0x0077] := by decide
theorem test_print_ffff : (run1 0x70FFFF start).map (·.out) = some [0xFFFF] := by decide

/-- V-FAULT: one row of each kind. -/
theorem test_faults :
    ∀ row ∈ [((0x740000 : InstrWord), FaultKind.illegalOpcode, 1), (0x050000, .illegalMode, 2), (0x400001, .illegalMode, 2),
      (0x090006, .unknownRegister, 3), (0x420001, .stackUnderflow, 4)],
    run1 row.1 start = some { holding row.1 start with run := .faulted row.2.1 row.2.2 0 row.1 } := by decide

/-! ### Memory, loader, assembler -/

theorem test_memory_write_keeps_order :
    Memory.write 0x0020 7 (Memory.write 0x0010 5 (Memory.write 0x0020 6 [])) = [(0x0010, 5), (0x0020, 7)] := by decide

theorem test_loadLine : loadLine "0F0100".toList = some 0x0F0100 ∧ loadLine "0F010".toList = none := by decide

/-- Program P3 of 95_test_vectors.md, from its source text to its words. -/
theorem test_assemble_P3 :
    assemble defaultLegalModes ["READ A".toList, "CMP 0061".toList, "JB LOW".toList, "PRINT 'H'".toList, "JMP END".toList, "LOW:".toList,
      "PRINT 'L'".toList, "END:".toList, "HALT".toList] =
    .ok [0x6D0001, 0x440061, 0x64000F, 0x700048, 0x480012, 0x70004C, 0x040000] := by decide

theorem test_assemble_refuses :
    assemble defaultLegalModes ["STORE 0001".toList] = .error .illegalMode ∧
    assemble defaultLegalModes ["LOAD A B".toList] = .error .multipleOperands ∧
    assemble defaultLegalModes ["LOAD #0005".toList] = .error .unknownOperand ∧
    assemble defaultLegalModes ["MOVE A".toList] = .error .unknownMnemonic ∧
    assemble defaultLegalModes ["JE 0003".toList, "JNE [B]".toList] = .error .illegalMode := by decide

/-- U23 and R53: letter case, and an operand after HALT or NOP. -/
theorem test_assemble_refuses_open_points :
    assemble defaultLegalModes ["loop:".toList] = .error .lowerCaseLabel ∧
    assemble defaultLegalModes ["HALT 0005".toList] = .error .operandNotTaken ∧
    assemble defaultLegalModes ["NOP 'A'".toList] = .error .operandNotTaken := by decide

/-- R66: the table is the engine's, here the narrower one of G3. -/
theorem test_assemble_under_narrow_table :
    assemble defaultLegalModes ["PUSH 0001".toList] = .ok [0x3C0001] ∧
    assemble narrowLegalModes ["PUSH 0001".toList] = .error .illegalMode ∧
    assemble narrowLegalModes ["PUSH B".toList] = .ok [0x3D0002] := by decide

/-- R63: brackets around neither a register nor hex digits leave the label; around hex digits they win over it. -/
theorem test_assemble_bracketed_label :
    assemble defaultLegalModes ["NOP".toList, "[FOO]:".toList, "LOAD [FOO]".toList] = .ok [0x380000, 0x080003] ∧
    assemble defaultLegalModes ["NOP".toList, "[10]:".toList, "LOAD [10]".toList] = .ok [0x380000, 0x0B0010] := by decide

theorem test_assemble_operand_shapes :
    assemble defaultLegalModes ["LOAD [B]".toList, "LOAD [0010]".toList, "LOAD A".toList, "LOAD 000A".toList,
      "JE 0003".toList, "HALT".toList] =
    .ok [0x0A0002, 0x0B0010, 0x090001, 0x08000A, 0x4C0003, 0x040000] := by decide

/-! ### Witnesses: for each statement with hypotheses, a state and operands that meet them, each clause at a boundary -/

theorem witness_EncodeOfDecodeIsTheWord : decode 0x73FFFF = .ok (.print .direct 0xFFFF) := by decide

theorem witness_WordOfEveryInstruction :
    (Instr.print .direct 0xFFFF, 0x700000) ∈ [(Instr.read .direct 0xFFFF, 0x6C0000), (.print .direct 0xFFFF, 0x700000)] := by
  decide

/-- Both sides, at opcodes 00, 01, 1C and 1D. -/
theorem witness_IllegalOpcodeExactlyOnUnmappedOpcodes :
    [(0x03FFFF : InstrWord), 0x040000, 0x73FFFF, 0x740000].all fun w =>
      (holding w busy).run = .running ∧ (holding w busy).par.prog[(holding w busy).pc]? = some w := by decide

theorem witness_StepRunsTheDecodedInstruction :
    (holding 0x0F0100 busy).run = .running ∧ (holding 0x0F0100 busy).par.prog[0]? = some 0x0F0100 ∧
      decode 0x0F0100 = .ok (.store .direct 0x0100) := by decide

theorem witness_PlacedWordIsTheNextInstruction :
    decode (BitVec.ofNat 24 0x6D0001) = .ok (.read .register 1) := by decide

/-- From reset, the placed word runs, READ with a free Word too. -/
theorem test_withFetchWord_runs_from_reset :
    ∀ w ∈ [0x380000, 0x6D0001, 0x0C0000], (nextState? (step (State.reset.withFetchWord 24 w))).isSome = true := by decide

/-- A READ at index 0 with no input. -/
def waiting : State := holding 0x6D0001 start

theorem waiting_stuck : Stuck waiting :=
  ⟨rfl, by decide, 0x6D0001, .register, 1, by decide, by decide, by decide⟩

theorem witness_StatesWithoutAStep :
    ({ start with run := .halted } : State).run = .halted ∧
    (start.run = .running ∧ start.par.prog.length ≤ start.pc) ∧
    ({ start with run := .faulted .stackUnderflow 4 0 0x410001 } : State).run = .faulted .stackUnderflow 4 0 0x410001 ∧
    Stuck waiting ∧ Final start :=
  ⟨rfl, by decide, rfl, waiting_stuck, by decide⟩

/-- A state in the middle of a run meets the invariant. -/
theorem busy_inv (w : InstrWord) : Inv (holding w busy) where
  memCanonical := (by decide : Memory.wf busy.mem)
  zeroSignExclusive := (by decide : ¬(busy.flags.zero = true ∧ busy.flags.sign = true))
  pcBounded := Nat.zero_le _
  faultRecord := by intro kind code index word h; cases h
  inputCounted := by intro _; exact Nat.zero_le _
  tableSound := (by decide : storesNamePlaces busy.par.legal)

/-- The stuck state meets the invariant. -/
theorem waiting_inv : Inv waiting where
  memCanonical := by decide
  zeroSignExclusive := by decide
  pcBounded := Nat.zero_le _
  faultRecord := by intro kind code index word h; cases h
  inputCounted := by intro _; exact Nat.zero_le _
  tableSound := by decide

theorem witness_RunningProgramStepsUnlessStuckInRead :
    (Inv (holding 0x0C0000 busy) ∧ (holding 0x0C0000 busy).run = .running ∧
      (holding 0x0C0000 busy).pc < (holding 0x0C0000 busy).par.prog.length) ∧
    (Inv waiting ∧ waiting.run = .running ∧ waiting.pc < waiting.par.prog.length) :=
  ⟨⟨busy_inv _, rfl, by decide⟩, waiting_inv, rfl, by decide⟩

theorem witness_ChecksRaiseTheirFaultsInOrder :
    busy.legal .store .immediate = false ∧
    (busy.legal .store .register = true ∧ (Instr.store .register 0).registerNamed = false) ∧
    (busy.legal .load .indirect = true ∧ (Instr.load .indirect 6).registerNamed = false) ∧
    Executable (.pop .direct 0xFFFF) start ∧ start.stack = [] := by decide

theorem witness_StepIntoAFaultChangesOnlyTheRunState :
    ∃ t, step (holding 0x410001 start) = .next t ∧ t.run = .faulted .stackUnderflow 4 0 0x410001 :=
  ⟨_, rfl, rfl⟩

theorem witness_IllegalModePairsOfTheDefaultTable :
    busy.par.legal = defaultLegalModes ∧ busy.run.kind? = none := by decide

theorem witness_ResolveByMode :
    regIndex 1 = some .a ∧ regIndex 5 = some .e ∧ (∀ cell ∈ busy.mem, cell.1 ≠ (0x0011 : Word).toNat) ∧
      busy.par.legal = defaultLegalModes := by decide

/-- `alwaysIllegalMode` is about states that exist: each of the jumps and shifts, in a mode it does not have. -/
theorem witness_alwaysIllegalMode :
    start.par.legal = defaultLegalModes ∧
    ∀ i ∈ [Instr.shl .immediate 2, .shr .immediate 2, .jz .register 1, .jnz .indirect 6, .jc .direct 9, .jnc .register 0],
      (nextState? (exec i start)).map (·.run) = some (.faulted .illegalMode 2 0 (encode i)) := by
  decide

theorem witness_RegisterIdsNameAToE : regIndex 5 = some .e ∧ regIndex 0 = none ∧ regIndex 6 = none := by decide

theorem witness_StoredOperandIsReadBack :
    (resolveStore .indirect 3 0xABCD busy).isSome = true ∧ (resolveStore .register 1 0 busy).isSome = true ∧
      (resolveStore .direct 0 0 busy).isSome = true := by decide

theorem witness_MemoriesThatReadAlikeAreEqual :
    Memory.wf busy.mem ∧ Memory.wf (Memory.write 0x0020 0 busy.mem) ∧
      ∀ a, Memory.read a busy.mem = Memory.read a (Memory.write 0x0020 0 busy.mem) := by
  have same : Memory.write 0x0020 0 busy.mem = busy.mem := by decide
  exact ⟨by decide, by decide, fun a => by rw [same]⟩

/-- Every instruction is executable in `busy` in every mode the default table gives it. -/
theorem witness_Executable :
    ∀ op ∈ Opcode.all, ∀ m ∈ defaultModes op, Executable (Instr.ofParts op m 3) busy := by decide

/-- With a wider table every mode is: the in-place instructions in mode 00 and the jumps in the others too. -/
theorem witness_Executable_open_table :
    ∀ op ∈ Opcode.all, ∀ m ∈ anyMode, Executable (Instr.ofParts op m 5) (busy.withLegal openTable) := by decide

theorem witness_PopStoresTheNewestEntry :
    Mode.direct ≠ .immediate ∧ Executable (.pop .direct 0xFFFF) busy ∧ busy.stack = [0x0001] ++ [0x0002] := by decide

theorem witness_StoringToAnImmediateStops :
    Executable (.store .immediate 0) (busy.withLegal openTable) ∧
    (Executable (.pop .immediate 0) (busy.withLegal openTable) ∧ (busy.withLegal openTable).stack ≠ []) ∧
    (Executable (.read .immediate 0) (busy.withLegal openTable) ∧
      (busy.withLegal openTable).par.input.wordAt (busy.withLegal openTable).inpos ≠ none) := by decide

/-- `raisesOnly` is about runs that do raise: an unknown register and, for a jump, an illegal mode. -/
theorem witness_raisesOnly :
    (∃ t, exec (.add .register 6) busy = .next t ∧ t.run.kind? = some .unknownRegister) ∧
    (∃ t, exec (.jz .direct 6) busy = .next t ∧ t.run.kind? = some .illegalMode) :=
  ⟨⟨_, rfl, rfl⟩, _, rfl, rfl⟩

theorem witness_XorAndOrCombineBitByBit :
    (Instr.and .register 3, Bool.and) ∈
      [(Instr.xor .register 3, Bool.xor), (Instr.and .register 3, Bool.and), (Instr.or .register 3, Bool.or)] ∧
    Executable (Instr.and .register 3) busy :=
  ⟨by simp, by decide⟩

theorem witness_OperandThatNamesASeesTheOldA :
    busy.regs.a = 5 ∧
    ∀ i ∈ [Instr.add .register 1, .sub .register 1, .xor .register 1, .and .register 1, .or .register 1, .not .register 1]
      ++ [.cmp .register 1, .load .register 1, .add .indirect 1, .load .indirect 1], Executable i busy := by decide

theorem witness_JmpGoesToTheIndexOfTheAddress :
    Executable (.jmp .immediate 0xFFFF) busy ∧ 3 * 21845 ≤ (0xFFFF : Word).toNat ∧
      (0xFFFF : Word).toNat < 3 * 21845 + 3 := by decide

/-- A predicate for each of the four comparisons, taken and not taken. -/
theorem witness_JaToJbeTestSignAndZero :
    (True ↔ busy.flags.sign = false ∧ busy.flags.zero = false) ∧ (True ↔ busy.flags.sign = false ∨ busy.flags.zero = true) ∧
    (False ↔ busy.flags.sign = true ∧ busy.flags.zero = false) ∧ (False ↔ busy.flags.sign = true ∨ busy.flags.zero = true) ∧
    Executable (.ja .immediate 0xFFFF) busy ∧ Executable (.jae .immediate 0) busy ∧ Executable (.jb .immediate 0) busy ∧
    Executable (.jbe .immediate 0xFFFF) busy := by
  decide

/-- CMP executable, the jumps executable, at differences 0, 7FFF and 8000. -/
theorem witness_CompareThenBranchFollowsTheDifference :
    [(0x0000 : Word), 0x8001, 0x8000].all fun k => Executable (.cmp .immediate k) (withA 0) ∧
      Executable (.ja .immediate 0xFFFF) (withA 0) ∧ Executable (.jae .immediate 0) (withA 0) ∧
      Executable (.jb .immediate 0xFFFF) (withA 0) ∧ Executable (.jbe .immediate 0) (withA 0) := by decide

theorem witness_ReadStoresTheNextCharacter :
    (Executable (.read .direct 0xFFFF) busy ∧ busy.par.input.wordAt busy.inpos = some 0x0041 ∧
      busy.par.input.given[busy.inpos]? = some 0x0041) ∧
    (Executable (.read .register 1) waiting ∧ waiting.par.input.wordAt waiting.inpos = none ∧
      waiting.par.input.given.length ≤ waiting.inpos) := by decide

/-- The frames: a next state of a storing and of a non-storing form, with a register and a cell that are not the
destination. -/
theorem witness_Frames :
    (∃ t, exec (.inc .indirect 2) busy = .next t ∧ t.run.kind? = none ∧
      placeOf .indirect 2 busy ≠ some (.register .b) ∧ placeOf .indirect 2 busy ≠ some (.cell 0xFFFF)) ∧
    (∃ t, exec (.push .register 2) busy = .next t ∧ busy.run.kind? = none) ∧
    (∃ t, exec (.jmp .immediate 6) busy = .next t ∧ t.run.kind? = none) ∧
    (∃ t, exec (.load .register 6) busy = .next t ∧ t.run.kind? ≠ none) :=
  ⟨⟨_, rfl, by decide, by decide, by decide⟩, ⟨_, rfl, by decide⟩, ⟨_, rfl, by decide⟩, _, rfl, by decide⟩

theorem witness_StackIsLastInFirstOut :
    busy.par.legal = defaultLegalModes ∧ Executable (.push .direct 0xFFFF) busy ∧ Executable (.pop .indirect 3) busy ∧
    busy.stack ≠ [] ∧ (nextState? (exec (.pop .indirect 3) busy)).isSome = true ∧ start.stack = [] ∧
    Executable (.pop .indirect 3) start := by decide

theorem witness_StreamsMoveOnlyByReadAndPrint :
    (∃ t, exec (.read .register 1) busy = .next t ∧ t.run.kind? = none) ∧
    (∃ t, exec (.print .register 1) busy = .next t ∧ t.run.kind? = none) ∧
    exec (.read .register 1) waiting = .fault .inputExhausted :=
  ⟨⟨_, rfl, rfl⟩, ⟨_, rfl, rfl⟩, rfl⟩

theorem witness_EveryStepKeepsTheInvariant :
    Inv (holding 0x0F0100 busy) ∧ ∃ t, step (holding 0x0F0100 busy) = .next t :=
  ⟨busy_inv _, _, rfl⟩

theorem witness_NoRunChangesTheProgram : ∃ t, RunsTo (holding 0x0F0100 busy) 1 t := ⟨_, rfl⟩

theorem witness_RunUnderNarrowTableIsRunUnderDefault :
    ∃ t, ((holding 0x3D0002 busy).withLegal narrowLegalModes).par.legal = narrowLegalModes ∧
      RunsTo ((holding 0x3D0002 busy).withLegal narrowLegalModes) 1 t ∧ t.run.kind? = none :=
  ⟨_, rfl, rfl, rfl⟩

theorem witness_AssembledWordsAreWellFormedInstructions :
    assemble narrowLegalModes ["LOOP:".toList, "PUSH B".toList, "JMP LOOP".toList] = .ok [0x3D0002, 0x480000] ∧
      (0x480000 : InstrWord) ∈ [(0x3D0002 : InstrWord), 0x480000] := by decide

theorem witness_AssembledProgramFaultsOnlyByStackUnderflow :
    assemble narrowLegalModes ["POP B".toList] = .ok [0x410002] ∧
      ∃ t, RunsTo (State.start ⟨[0x410002], ⟨[], .ended⟩, narrowLegalModes⟩) 1 t ∧
        t.run.kind? = some .stackUnderflow :=
  ⟨by decide, _, rfl, rfl⟩

theorem witness_ResetMeetsTheInvariant : storesNamePlaces start.par.legal ∧ storesNamePlaces narrowLegalModes := by decide

theorem witness_LabelAddressIsThreeTimesTheIndex :
    pass1 0 [["NOP".toList], ["LOOP:".toList], ["JMP".toList, "LOOP".toList]] = .ok [("LOOP".toList, 3)] ∧
      asWord 3 = some 3 := by decide

end Sys2Proof.Tests
end

section
/-! PROOFS. The parameters of a run are fixed (00_scope.md R5; 20_memory.md R42). -/

namespace Sys2Proof.Machine

/-- No instruction writes `PROG`, `IN` or `LEGAL_MODES`: not by its effect, and not by raising a fault. -/
theorem exec_par {i : Instr} {s t : State} (h : exec i s = .next t) : t.par = s.par := by
  obtain ⟨kind, -, rfl⟩ | ⟨-, p, -, effect⟩ := exec_next h
  · exact State.par_raise s kind (encode i)
  · exact effect.par

/-- No step writes `PROG`, `IN` or `LEGAL_MODES`. -/
theorem step_par {s t : State} (h : step s = .next t) : t.par = s.par := by
  obtain ⟨w, -, -, ⟨i, -, hexec⟩ | ⟨-, rfl⟩⟩ := step_next h
  · exact exec_par hexec
  · exact State.par_raise s .illegalOpcode w

/-- The parameters are "fixed for one run" (00_scope.md R5), however long it is. -/
theorem runsTo_par {n : Nat} {s t : State} (h : RunsTo s n t) : t.par = s.par := by
  induction n generalizing s with
  | zero => rw [runsTo_zero.mp h]
  | succ n ih =>
    obtain ⟨u, hstep, hrest⟩ := runsTo_succ.mp h
    exact (ih hrest).trans (step_par hstep)

/-- In a RUNNING state a fetch reads `PROG` at `pc` and nothing else (20_memory.md R42). -/
theorem State.fetch_ok_of_running {s : State} (hr : s.run = .running) (w : InstrWord) :
    s.fetch = .ok w ↔ s.par.prog[s.pc]? = some w :=
  State.fetch_ok.trans (and_iff_right hr)

/-- Settles O50: no step changes the parameters, so by induction on its length no run does; the fetch clause is what a
fetch answers in a RUNNING state. -/
theorem noRunChangesTheProgram : Obligations.NoRunChangesTheProgram :=
  ⟨fun _ _ _ h => runsTo_par h, fun _ hr w => State.fetch_ok_of_running hr w⟩

end Sys2Proof.Machine
end

section
/-! PROOFS. Which words are no instruction (30_encoding.md R55), and which faults only they raise (60_exceptions.md
R171). -/

namespace Sys2Proof

/-- The opcode field is bits 23 to 18 (30_encoding.md R51), so as a number it is the word divided by 2^18. -/
theorem opcodeField_toNat (w : InstrWord) : (opcodeField w).toNat = w.toNat / 2 ^ 18 := by
  have := w.isLt
  simp only [opcodeField, BitVec.extractLsb'_toNat, Nat.shiftRight_eq_div_pow]
  omega

/-- The opcode numbers without an opcode (30_encoding.md R55), out of the 64 of the field. -/
theorem Opcode.ofCode_eq_none_iff (c : BitVec 6) : Opcode.ofCode c = none ↔ c.toNat = 0x00 ∨ 0x1D ≤ c.toNat := by
  revert c
  decide

/-- Decoding fails on the opcode field alone: the mode and operand fields play no part. -/
theorem decode_error_iff (w : InstrWord) :
    decode w = .error .illegalOpcode ↔ Opcode.ofCode (opcodeField w) = none := by
  obtain ⟨op, hop, hdec⟩ | ⟨hop, hdec⟩ := decode_cases w
  · simp [hop, hdec]
  · simp [hop, hdec]

end Sys2Proof

namespace Sys2Proof.Machine

@[simp] theorem State.kind?_raise (s : State) (kind : FaultKind) (w : InstrWord) :
    (s.raise kind w).run.kind? = some kind := rfl

/-- A decoded instruction does not raise IllegalOpcode: its checks raise the three other kinds, and its effect raises
none. -/
theorem exec_kind_ne_illegalOpcode {i : Instr} {s t : State} (hr : s.run = .running) (h : exec i s = .next t) :
    t.run.kind? ≠ some .illegalOpcode := by
  obtain ⟨kind, ground, rfl⟩ | ⟨-, p, -, effect⟩ := exec_next h
  · rw [State.kind?_raise]
    rintro ⟨⟩
    exact ground
  · rw [effect.run, hr]
    split <;> simp [RunState.kind?]

/-- In a RUNNING state, IllegalOpcode is the fault of exactly the words that do not decode (60_exceptions.md R171). -/
theorem step_illegalOpcode_iff {s : State} {w : InstrWord} (hr : s.run = .running)
    (hw : s.par.prog[s.pc]? = some w) :
    (∃ t, step s = .next t ∧ t.run.kind? = some .illegalOpcode) ↔ decode w = .error .illegalOpcode := by
  constructor
  · rintro ⟨t, hstep, hkind⟩
    obtain ⟨w', -, hw', ⟨i, -, hexec⟩ | ⟨hdec, -⟩⟩ := step_next hstep
    · exact absurd hkind (exec_kind_ne_illegalOpcode hr hexec)
    · rwa [Option.some.inj (hw.symm.trans hw')]
  · intro hdec
    exact ⟨s.raise .illegalOpcode w, by rw [step_of_fetch hr hw, hdec]; rfl, State.kind?_raise ..⟩

/-- Settles O5: a step raises IllegalOpcode exactly when the word does not decode, which its opcode field decides. -/
theorem illegalOpcodeExactlyOnUnmappedOpcodes : Obligations.IllegalOpcodeExactlyOnUnmappedOpcodes := by
  intro s w hr hw
  rw [step_illegalOpcode_iff hr hw, decode_error_iff, Opcode.ofCode_eq_none_iff, opcodeField_toNat]

end Sys2Proof.Machine
end

section
/-! PROOFS. Operand resolution in the four modes (40_fetch_decode_dispatch.md R85 to R87). -/

namespace Sys2Proof.Machine

/-! The place each mode names. -/

@[simp] theorem placeOf_immediate (k : Word) (s : State) : placeOf .immediate k s = some (.immediate k) := rfl

@[simp] theorem placeOf_direct (k : Word) (s : State) : placeOf .direct k s = some (.cell k) := rfl

theorem placeOf_register {k : Word} {r : Reg} (s : State) (h : regIndex k = some r) :
    placeOf .register k s = some (.register r) := by
  simp [placeOf, h]

theorem placeOf_indirect {k : Word} {r : Reg} (s : State) (h : regIndex k = some r) :
    placeOf .indirect k s = some (.cell (s.reg r)) := by
  simp [placeOf, h]

/-- `ResolveValue` reads the place the operand names. -/
theorem resolveValue_of_placeOf {m : Mode} {k : Word} {s : State} {p : Place} (h : placeOf m k s = some p) :
    resolveValue m k s = some (p.read s) := by
  simp [resolveValue, h]

/-- `ResolveStore` writes the place the operand names. -/
theorem resolveStore_of_placeOf {m : Mode} {k : Word} {s : State} {p : Place} (v : Word)
    (h : placeOf m k s = some p) : resolveStore m k v s = p.write v s := by
  simp [resolveStore, h]

/-- A cell that was never written reads as zero (20_memory.md R32). -/
theorem State.memRead_unlisted {s : State} {addr : Word} (h : ∀ cell ∈ s.mem, cell.1 ≠ addr.toNat) :
    s.memRead addr = 0 :=
  Memory.read_unlisted h

/-- The frame of a write to a register: the four others, and every part of the state but the register file. -/
theorem Place.write_register_frame (r : Reg) (v : Word) (s : State) :
    ∃ t, (Place.register r).write v s = some t ∧ t = { s with regs := t.regs } ∧
      t.reg r = v ∧ ∀ other, other ≠ r → t.reg other = s.reg other :=
  ⟨s.setReg r v, rfl, rfl, s.reg_setReg_same r v, fun _ h => s.reg_setReg_other v h⟩

/-- The frame of a write to a cell: every other cell, and every part of the state but the memory. -/
theorem Place.write_cell_frame (addr v : Word) (s : State) :
    ∃ t, (Place.cell addr).write v s = some t ∧ t = { s with mem := t.mem } ∧
      t.memRead addr = v ∧ ∀ other, other ≠ addr → t.memRead other = s.memRead other :=
  ⟨s.memWrite addr v, rfl, rfl, s.memRead_memWrite_same addr v, fun _ h => s.memRead_memWrite_other v h⟩

/-- No instruction stores to an Immediate when the table keeps mode 00 from STORE, POP and READ
(93_implementation_defined.md U5). -/
theorem exec_ne_storeToImmediate {s : State} (sound : storesNamePlaces s.par.legal) (i : Instr) :
    exec i s ≠ .fault .storeToImmediate := by
  intro h
  obtain ⟨-, hmode, ⟨hlegal, -⟩, hop⟩ | ⟨hf, -⟩ := exec_fault h
  · obtain ⟨hstore, hpop, hread⟩ := sound
    rw [hmode, State.legal] at hlegal
    simp only [List.mem_cons, List.not_mem_nil, or_false] at hop
    obtain hop | hop | hop := hop
    · simp [hop, hstore] at hlegal
    · simp [hop, hpop] at hlegal
    · simp [hop, hread] at hlegal
  · cases hf

/-- The default table keeps mode 00 from the storing instructions (30_encoding.md R54). -/
theorem storesNamePlaces_default : storesNamePlaces defaultLegalModes := by decide

/-- Settles O14: each storing mode names one place and a write to a place has its frame; a mode 00 store would need an
instruction the default table does not let through. -/
theorem resolveStoreByMode : Obligations.ResolveStoreByMode := by
  intro s k v
  refine ⟨fun r hr => ?_, fun r hr => ?_, ?_, ?_, fun htable => ?_⟩
  · rw [resolveStore_of_placeOf v (placeOf_register s hr)]
    exact Place.write_register_frame r v s
  · rw [resolveStore_of_placeOf v (placeOf_indirect s hr)]
    exact Place.write_cell_frame (s.reg r) v s
  · rw [resolveStore_of_placeOf v (placeOf_direct k s)]
    exact Place.write_cell_frame k v s
  · exact resolveStore_of_placeOf v (placeOf_immediate k s)
  · exact exec_ne_storeToImmediate (htable ▸ storesNamePlaces_default)

/-- Settles O13: `ResolveValue` is the Word in the place each mode names, and an unlisted cell holds zero. -/
theorem resolveValueByMode : Obligations.ResolveValueByMode := fun s k =>
  ⟨resolveValue_of_placeOf (placeOf_immediate k s), resolveValue_of_placeOf (placeOf_direct k s),
    fun _ h => State.memRead_unlisted h,
    fun _ hr => ⟨resolveValue_of_placeOf (placeOf_register s hr), resolveValue_of_placeOf (placeOf_indirect s hr)⟩⟩

end Sys2Proof.Machine
end

section
/-! PROOFS. ADD (42_alu.md R113), over the value of an encoded word and the faults an instruction can raise. -/

namespace Sys2Proof

/-- The word of an instruction as a number: opcode, mode and operand at bits 18, 16 and 0 (30_encoding.md R51). -/
theorem encode_toNat (i : Instr) :
    (encode i).toNat = i.opcode.code.toNat * 0x40000 + i.mode.code.toNat * 0x10000 + i.operand.toNat := by
  have hmode := i.mode.code.isLt
  have hoperand := i.operand.isLt
  rw [encode, BitVec.toNat_append, BitVec.toNat_append, ← Nat.shiftLeft_add_eq_or_of_lt hoperand,
    ← Nat.shiftLeft_add_eq_or_of_lt hmode, Nat.shiftLeft_eq, Nat.shiftLeft_eq]
  omega

/-- The default table gives an opcode the modes of its own row (30_encoding.md R54). -/
theorem legalIn_default (op : Opcode) (m : Mode) : legalIn defaultLegalModes op m = (defaultModes op).contains m := by
  cases op <;> rfl

end Sys2Proof

namespace Sys2Proof.Machine

/-- A fault that an instruction enters has its ground in the state before: the effect of an instruction raises none. -/
theorem faultGround_of_exec {i : Instr} {s t : State} {kind : FaultKind} (hs : s.run.kind? = none)
    (h : exec i s = .next t) (ht : t.run.kind? = some kind) : faultGround i s kind := by
  obtain ⟨kind', ground, rfl⟩ | ⟨-, p, -, effect⟩ := exec_next h
  · rw [State.kind?_raise] at ht
    exact Option.some.inj ht ▸ ground
  · rw [effect.run] at ht
    split at ht
    · cases ht
    · simp [hs] at ht

/-- The default table lets an instruction through check 2 when its mode is in its row, and only POP has a check 4
(40_fetch_decode_dispatch.md R83): what is left is the register check. -/
theorem raisesOnly_unknownRegister {i : Instr} (hmode : i.mode ∈ defaultModes i.opcode) (hpop : i.opcode ≠ .pop) :
    raisesOnly i [.unknownRegister] := by
  intro s t htable hs h kind ht
  have ground := faultGround_of_exec hs h ht
  cases kind with
  | illegalOpcode => exact ground.elim
  | illegalMode =>
    have hlegal : s.legal i.opcode i.mode = true := by
      simpa [State.legal, htable, legalIn_default] using hmode
    exact absurd (hlegal.symm.trans ground) (by decide)
  | unknownRegister => exact List.mem_singleton_self _
  | stackUnderflow =>
    obtain ⟨-, hop, -⟩ := ground
    exact absurd hop hpop

/-- Every mode is among all four. -/
theorem mem_anyMode (m : Mode) : m ∈ anyMode := by
  cases m <;> decide

/-- An executable ADD accumulates the sum of A and the operand's value. -/
theorem exec_add_of_executable {m : Mode} {k : Word} {s : State} (h : Executable (.add m k) s) :
    ∃ v, resolveValue m k s = some v ∧ exec (.add m k) s = .next (s.accumulate (add16 s.regs.a v)) := by
  obtain ⟨p, hp, handler⟩ := admitted_of_executable h
  exact ⟨p.read s, resolveValue_of_placeOf hp, handler _⟩

/-- Settles O23: the word is that of every instruction, ADD is legal in every mode by default so that only the register
check can fail, and the sum of two Words is their sum as numbers modulo 65536. -/
theorem addSumsIntoTheAccumulator : Obligations.AddSumsIntoTheAccumulator := by
  intro m k
  have hword : (encode (.add m k)).toNat = 0x100000 + m.code.toNat * 0x10000 + k.toNat := by
    simp [encode_toNat, Instr.opcode, Instr.mode, Instr.operand, Opcode.code]
  have hpop : Opcode.add ≠ .pop := by decide
  refine ⟨hword, raisesOnly_unknownRegister (mem_anyMode m) hpop, fun s hexec => ?_⟩
  obtain ⟨v, hv, hadd⟩ := exec_add_of_executable hexec
  have hsum : s.regs.a + v = BitVec.ofNat 16 ((s.regs.a.toNat + v.toNat) % 65536) :=
    BitVec.eq_of_toNat_eq (by simp)
  refine ⟨v, hv, ?_⟩
  rw [hadd, State.accumulate_add16, hsum]

end Sys2Proof.Machine
end

section
/-! PROOFS. The words of instructions: the round trips and the numbers (30_encoding.md sections 1 and 2). -/

namespace Sys2Proof

/-- Decoding reads back the three fields that encoding wrote, and they make up the instruction. -/
@[simp] theorem decode_encode (i : Instr) : decode (encode i) = .ok i := by
  simp [decode, Laws.rebuild_all]

/-- A word is its three fields, from the high bits down (30_encoding.md R51). -/
theorem fields_append (w : InstrWord) : opcodeField w ++ modeField w ++ operandField w = w := by
  apply BitVec.eq_of_toNat_eq
  have hmode := (modeField w).isLt
  have hoperand := (operandField w).isLt
  rw [BitVec.toNat_append, BitVec.toNat_append, ← Nat.shiftLeft_add_eq_or_of_lt hoperand,
    ← Nat.shiftLeft_add_eq_or_of_lt hmode]
  simp only [opcodeField, modeField, operandField, BitVec.extractLsb'_toNat, Nat.shiftLeft_eq,
    Nat.shiftRight_eq_div_pow]
  have := w.isLt
  omega

/-- Every word that decodes is the word of the instruction decoded. -/
theorem encode_of_decode {w : InstrWord} {i : Instr} (h : decode w = .ok i) : encode i = w := by
  obtain ⟨op, hop, hdec⟩ | ⟨-, hdec⟩ := decode_cases w
  · cases hdec.symm.trans h
    rw [encode, Instr.opcode_ofParts, Instr.mode_ofParts, Instr.operand_ofParts, Mode.code_ofCode,
      Opcode.code_of_ofCode hop, fields_append]
  · cases hdec.symm.trans h

/-- The number of a mode is the one listed for it (30_encoding.md R52). -/
theorem Mode.code_toNat_mem (m : Mode) :
    (m, m.code.toNat) ∈ [(Mode.immediate, 0), (.register, 1), (.indirect, 2), (.direct, 3)] := by
  cases m <;> decide

/-- The word of an instruction by its opcode, as a number. -/
theorem encode_ofParts_toNat (op : Opcode) (m : Mode) (k : Word) :
    (encode (Instr.ofParts op m k)).toNat = op.code.toNat * 0x40000 + m.code.toNat * 0x10000 + k.toNat := by
  rw [encode_toNat, Instr.opcode_ofParts, Instr.mode_ofParts, Instr.operand_ofParts]

/-- Settles O1: each field of the encoded word is the field it was made of. -/
theorem decodeOfEncodeIsTheInstruction : Obligations.DecodeOfEncodeIsTheInstruction := decode_encode

/-- Settles O2: decoding splits a word into its three fields and encoding joins them. -/
theorem encodeOfDecodeIsTheWord : Obligations.EncodeOfDecodeIsTheWord := fun _ _ => encode_of_decode

/-- Settles O3: the match value of each row is its opcode number times 2^18. -/
theorem wordOfEveryInstruction : Obligations.WordOfEveryInstruction := by
  intro m k row hrow
  refine ⟨m.code.toNat, m.code_toNat_mem, ?_⟩
  have hmatch : row.2 = row.1.opcode.code.toNat * 0x40000 ∧ row.1.mode = m ∧ row.1.operand = k := by
    revert row
    simp [Instr.opcode, Instr.mode, Instr.operand, Opcode.code]
  obtain ⟨hvalue, hmode, hoperand⟩ := hmatch
  rw [encode_toNat, hvalue, hmode, hoperand]

/-- Settles O4: the decoder evaluated on each word. -/
theorem writtenOutWordsDecode : Obligations.WrittenOutWordsDecode := by
  unfold Obligations.WrittenOutWordsDecode
  decide

end Sys2Proof
end

section
/-! PROOFS. The invariant of the machine, and the state a run starts in (10_state.md sections 3, 4, 6, 7 and 9). -/

namespace Sys2Proof.Machine

/-- A jump lands at 21845 at most, so `max(PROG_LEN, 21845)` bounds `pc` after an effect (10_state.md R19). -/
theorem Effect.pc_le {i : Instr} {p : Place} {s t : State} (effect : Effect i p s t)
    (inside : s.pc < s.par.prog.length) : t.pc ≤ max t.par.prog.length 21845 := by
  have hk := i.operand.isLt
  rw [effect.par]
  obtain hpc | ⟨-, hpc⟩ := effect.pc <;> omega

/-- An effect that writes `Z` writes `SF` from the same result (10_state.md R23). -/
theorem Effect.zeroSignExclusive {i : Instr} {p : Place} {s t : State} (effect : Effect i p s t)
    (h : ¬(s.flags.zero = true ∧ s.flags.sign = true)) : ¬(t.flags.zero = true ∧ t.flags.sign = true) := by
  obtain hf | ⟨-, r, hf⟩ | ⟨-, r, c, hf⟩ := effect.flags
  · rwa [hf]
  · rw [hf]
    exact zero_sign_exclusive r
  · rw [hf]
    exact zero_sign_exclusive r

/-- An effect consumes a Word of `IN` only if it was there (10_state.md R28). -/
theorem Effect.inputCounted {i : Instr} {p : Place} {s t : State} (effect : Effect i p s t)
    (h : s.par.input.tail = .ended → s.inpos ≤ s.par.input.given.length) :
    t.par.input.tail = .ended → t.inpos ≤ t.par.input.given.length := by
  rw [effect.par]
  intro ended
  have hinput := effect.input
  split at hinput
  · obtain ⟨hpos, v, hv, -⟩ := hinput
    rw [hpos]
    exact InputSource.length_of_wordAt hv ended
  · rw [hinput]
    exact h ended

/-- An effect enters no fault. -/
theorem Effect.kind?_none {i : Instr} {p : Place} {s t : State} (effect : Effect i p s t) (hs : s.run.kind? = none) :
    t.run.kind? = none := by
  rw [effect.run]
  split
  · rfl
  · exact hs

/-- The effect of an instruction inside the program keeps the invariant. -/
theorem Effect.inv {i : Instr} {p : Place} {s t : State} (effect : Effect i p s t) (hinv : Inv s)
    (hrun : s.run = .running) (inside : s.pc < s.par.prog.length) : Inv t where
  memCanonical := effect.memWf hinv.memCanonical
  zeroSignExclusive := effect.zeroSignExclusive hinv.zeroSignExclusive
  pcBounded := effect.pc_le inside
  faultRecord kind code index word hfault := by
    have hnone := effect.kind?_none (by rw [hrun]; rfl)
    rw [hfault] at hnone
    cases hnone
  inputCounted := effect.inputCounted hinv.inputCounted
  tableSound := effect.par ▸ hinv.tableSound

/-- Raising a fault on the word at `pc` keeps the invariant: its record is true (60_exceptions.md R176). -/
theorem Inv.raise {s : State} (hinv : Inv s) {w : InstrWord} (hw : s.par.prog[s.pc]? = some w) (kind : FaultKind) :
    Inv (s.raise kind w) where
  memCanonical := hinv.memCanonical
  zeroSignExclusive := hinv.zeroSignExclusive
  pcBounded := hinv.pcBounded
  faultRecord _ _ _ _ hfault := by
    cases hfault
    exact ⟨rfl, rfl, hw⟩
  inputCounted := hinv.inputCounted
  tableSound := hinv.tableSound

/-- Every step keeps the invariant: an effect does, and so does a fault raised on the fetched word. -/
theorem step_inv {s t : State} (hinv : Inv s) (h : step s = .next t) : Inv t := by
  obtain ⟨w, hrun, hw, ⟨i, hdec, hexec⟩ | ⟨-, rfl⟩⟩ := step_next h
  · obtain ⟨kind, -, rfl⟩ | ⟨-, p, -, effect⟩ := exec_next hexec
    · rw [encode_of_decode hdec]
      exact hinv.raise hw kind
    · exact effect.inv hinv hrun (List.getElem?_eq_some_iff.mp hw).1
  · exact hinv.raise hw .illegalOpcode

/-- The start of a run meets the invariant if the legality table is sound. -/
theorem State.start_inv (par : Params) (sound : storesNamePlaces par.legal) : Inv (State.start par) where
  memCanonical := State.start_mem_wf par
  zeroSignExclusive := by simp [State.start]
  pcBounded := Nat.zero_le _
  faultRecord _ _ _ _ hfault := by cases hfault
  inputCounted _ := Nat.zero_le _
  tableSound := sound

/-- Settles O47: an effect keeps each part of the invariant, and a fault changes only the run state. -/
theorem everyStepKeepsTheInvariant : Obligations.EveryStepKeepsTheInvariant := fun _ _ => step_inv

/-- Settles O48: the invariant at every start, and the default table of reset is sound. -/
theorem resetMeetsTheInvariant : Obligations.ResetMeetsTheInvariant :=
  ⟨State.start_inv, State.start_inv _ storesNamePlaces_default⟩

/-- Settles O49: the start state field by field; an empty memory reads as zero. -/
theorem startOfARun : Obligations.StartOfARun := by
  refine ⟨fun par => ⟨fun r => ?_, rfl, rfl, rfl, fun a => ?_, rfl, rfl, rfl, rfl⟩,
    Params.unloaded, rfl, rfl, rfl⟩
  · cases r <;> rfl
  · exact State.memRead_unlisted fun cell hcell => nomatch hcell

end Sys2Proof.Machine
end

section
/-! PROOFS. Steps that run an instruction, and states without a step (40_fetch_decode_dispatch.md sections 1 and 4). -/

namespace Sys2Proof.Machine

/-- A step on a word that decodes is the instruction (40_fetch_decode_dispatch.md R80). -/
theorem step_of_decode {s : State} {w : InstrWord} {i : Instr} (hrun : s.run = .running)
    (hw : s.par.prog[s.pc]? = some w) (hdec : decode w = .ok i) : step s = exec i s := by
  rw [step_of_fetch hrun hw, hdec]

/-- A step on a word that does not decode raises IllegalOpcode (R83 check 1). -/
theorem step_of_decode_error {s : State} {w : InstrWord} {e : DecodeError} (hrun : s.run = .running)
    (hw : s.par.prog[s.pc]? = some w) (hdec : decode w = .error e) : step s = .next (s.raise .illegalOpcode w) := by
  cases e
  rw [step_of_fetch hrun hw, hdec]
  rfl

theorem step_of_halted {s : State} (hrun : s.run = .halted) : step s = .fault .halted := by
  simp [step, State.fetch, hrun]

theorem step_of_faulted {s : State} {kind : FaultKind} {code index : Nat} {word : InstrWord}
    (hrun : s.run = .faulted kind code index word) : step s = .fault .afterFault := by
  simp [step, State.fetch, hrun]

theorem step_of_left {s : State} (hrun : s.run = .running) (hpc : s.par.prog.length ≤ s.pc) :
    step s = .fault .leftProgram := by
  simp [step, State.fetch, hrun, List.getElem?_eq_none hpc]

/-- Everything a RUNNING engine inside its program can do: run the instruction there, or raise IllegalOpcode. -/
theorem step_inside {s : State} (hrun : s.run = .running) (hpc : s.pc < s.par.prog.length) :
    ∃ w, s.par.prog[s.pc]? = some w ∧ ((∃ i, decode w = .ok i ∧ step s = exec i s) ∨
      step s = .next (s.raise .illegalOpcode w)) := by
  refine ⟨_, List.getElem?_eq_getElem hpc, ?_⟩
  cases hdec : decode s.par.prog[s.pc] with
  | ok i => exact .inl ⟨i, rfl, step_of_decode hrun (List.getElem?_eq_getElem hpc) hdec⟩
  | error e => exact .inr (step_of_decode_error hrun (List.getElem?_eq_getElem hpc) hdec)

/-- A state that is not FAULTED is final or RUNNING inside its program. -/
theorem final_or_inside {s : State} (hs : s.run.kind? = none) :
    Final s ∨ (s.run = .running ∧ s.pc < s.par.prog.length) := by
  cases hrun : s.run with
  | running =>
    obtain hpc | hpc := Nat.lt_or_ge s.pc s.par.prog.length
    · exact .inr ⟨rfl, hpc⟩
    · exact .inl (.inr ⟨hrun, hpc⟩)
  | halted => exact .inl (.inl hrun)
  | faulted kind code index word => simp [hrun, RunState.kind?] at hs

/-- An engine RUNNING inside its program stops neither as halted nor as having left it. -/
theorem step_inside_not_final {s : State} (hrun : s.run = .running) (hpc : s.pc < s.par.prog.length) :
    step s ≠ .fault .halted ∧ step s ≠ .fault .leftProgram := by
  obtain ⟨w, -, ⟨i, -, hstep⟩ | hstep⟩ := step_inside hrun hpc
  · rw [hstep]
    refine ⟨fun h => ?_, fun h => ?_⟩ <;> obtain ⟨hf, -⟩ | ⟨hf, -⟩ := exec_fault h <;> cases hf
  · simp [hstep]

/-- The final states are those that stop as halted or as having left the program (R90). -/
theorem final_iff_step (s : State) : Final s ↔ step s = .fault .halted ∨ step s = .fault .leftProgram := by
  constructor
  · rintro (hrun | ⟨hrun, hpc⟩)
    · exact .inl (step_of_halted hrun)
    · exact .inr (step_of_left hrun hpc)
  · intro h
    cases hrun : s.run with
    | faulted kind code index word => simp [step_of_faulted hrun] at h
    | _ =>
      obtain hfinal | ⟨hrun, hpc⟩ := final_or_inside (s := s) (by rw [hrun]; rfl)
      · exact hfinal
      · obtain ⟨hhalted, hleft⟩ := step_inside_not_final hrun hpc
        exact absurd h (not_or.mpr ⟨hhalted, hleft⟩)

/-- An executable READ without a Word at `inpos` stops (44_system_io.md R162). -/
theorem exec_read_exhausted {m : Mode} {k : Word} {s : State} (h : Executable (.read m k) s)
    (hinput : s.par.input.wordAt s.inpos = none) : exec (.read m k) s = .fault .inputExhausted := by
  obtain ⟨p, -, handler⟩ := admitted_of_executable h
  change admitted (.read m k) s _ = _
  rw [handler, State.takeInput_eq_none.mpr hinput]

/-- A stuck state stops under its name. -/
theorem Stuck.step {s : State} (h : Stuck s) : step s = .fault .inputExhausted := by
  obtain ⟨hrun, hinput, w, m, k, hw, hdec, hexec⟩ := h
  rw [step_of_decode hrun hw hdec, exec_read_exhausted hexec hinput]

/-- The instruction with a given opcode, and its own mode and operand field. -/
theorem Instr.eq_ofParts {i : Instr} {op : Opcode} (h : i.opcode = op) : i = Instr.ofParts op i.mode i.operand :=
  h ▸ (Laws.rebuild_all i).symm

/-- RUNNING inside its program under a sound table, the engine takes a step or is stuck: the other way to stop, a store to
an Immediate, does not occur. -/
theorem step_next_or_stuck {s : State} (sound : storesNamePlaces s.par.legal) (hrun : s.run = .running)
    (hpc : s.pc < s.par.prog.length) : (∃ t, step s = .next t) ∨ Stuck s := by
  obtain ⟨w, hw, ⟨i, hdec, hstep⟩ | hstep⟩ := step_inside hrun hpc
  · cases hexec : exec i s with
    | next t => exact .inl ⟨t, hstep.trans hexec⟩
    | fault f =>
      obtain ⟨rfl, -⟩ | ⟨rfl, hop, hi, hinput⟩ := exec_fault hexec
      · exact absurd hexec (exec_ne_storeToImmediate sound i)
      · rw [Instr.eq_ofParts hop] at hdec hi
        exact .inr ⟨hrun, hinput, w, i.mode, i.operand, hw, hdec, hi⟩
    | refused r => exact absurd hexec (exec_not_refused i s r)
  · exact .inl ⟨_, hstep⟩

/-- No state is refused. -/
theorem step_not_refused (s : State) (r : Refusal) : step s ≠ .refused r := by
  cases hrun : s.run with
  | halted => simp [step_of_halted hrun]
  | faulted kind code index word => simp [step_of_faulted hrun]
  | running =>
    obtain hpc | hpc := Nat.lt_or_ge s.pc s.par.prog.length
    · obtain ⟨w, -, ⟨i, -, hstep⟩ | hstep⟩ := step_inside hrun hpc
      · rw [hstep]
        exact exec_not_refused i s r
      · simp [hstep]
    · simp [step_of_left hrun hpc]

/-- The word at the index it was placed at: a shorter program is filled up to there (log entry 11). -/
theorem getElem?_placeWord (n : Nat) (w : InstrWord) (prog : List InstrWord) : (placeWord n w prog)[n]? = some w := by
  unfold placeWord
  rw [List.getElem?_set_self]
  simp only [List.length_append, List.length_replicate]
  omega

/-- Settles O6: what a step is once the word at `pc` is known to decode. -/
theorem stepRunsTheDecodedInstruction : Obligations.StepRunsTheDecodedInstruction := fun _ _ _ => step_of_decode

/-- Settles O7: placing leaves the state RUNNING with the word at `pc`. -/
theorem placedWordIsTheNextInstruction : Obligations.PlacedWordIsTheNextInstruction := by
  intro s w i hdec
  have hword : tableWord 24 w = BitVec.ofNat 24 w := by simp [tableWord, ← BitVec.toNat_inj]
  exact step_of_decode (w := tableWord 24 w) rfl (getElem?_placeWord ..) (hword ▸ hdec)

/-- Settles O8: the stop of each kind of state, and no other state stops as halted or as having left the program. -/
theorem statesWithoutAStep : Obligations.StatesWithoutAStep := fun s =>
  ⟨step_of_halted, step_of_left, fun _ _ _ _ => step_of_faulted, Stuck.step, final_iff_step s⟩

/-- Settles O9: the invariant holds a sound table, under which a READ without input is the only way to stop. -/
theorem runningProgramStepsUnlessStuckInRead : Obligations.RunningProgramStepsUnlessStuckInRead :=
  ⟨fun _ hinv hrun hpc => (step_next_or_stuck hinv.tableSound hrun hpc).imp_right fun h => ⟨h, h.step⟩,
    step_not_refused⟩

end Sys2Proof.Machine
end

section
/-! PROOFS. The checks and their faults (40_fetch_decode_dispatch.md R83; 60_exceptions.md section 1). -/

namespace Sys2Proof.Machine

/-- Every instruction stands behind the checks. -/
theorem exec_eq_admitted (i : Instr) (s : State) : ∃ handler, exec i s = admitted i s handler := by
  cases i <;> exact ⟨_, rfl⟩

/-- An instruction that a check turns away raises the fault of the check. -/
theorem exec_of_checked_error {i : Instr} {s : State} {kind : FaultKind} (h : checked i s = .error kind) :
    exec i s = .next (s.raise kind (encode i)) := by
  obtain ⟨handler, hexec⟩ := exec_eq_admitted i s
  rw [hexec, admitted, h]

/-- Check 2: a mode outside the run's table. -/
theorem exec_of_illegalMode {i : Instr} {s : State} (h : s.legal i.opcode i.mode = false) :
    exec i s = .next (s.raise .illegalMode (encode i)) :=
  exec_of_checked_error (by simp [checked, h])

/-- Check 3: a legal mode that names a register, and an operand field that does not. -/
theorem exec_of_unknownRegister {i : Instr} {s : State} (hlegal : s.legal i.opcode i.mode = true)
    (hreg : i.registerNamed = false) : exec i s = .next (s.raise .unknownRegister (encode i)) := by
  have hplace : placeOf i.mode i.operand s = none := by
    rw [← Option.isNone_iff_eq_none, ← Option.not_isSome, placeOf_isSome, hreg]
    rfl
  exact exec_of_checked_error (by simp [checked, hlegal, hplace])

/-- Check 4: an executable POP on an empty stack. -/
theorem exec_pop_empty {m : Mode} {k : Word} {s : State} (h : Executable (.pop m k) s) (hstack : s.stack = []) :
    exec (.pop m k) s = .next (s.raise .stackUnderflow (encode (.pop m k))) := by
  obtain ⟨p, -, handler⟩ := admitted_of_executable h
  change admitted (.pop m k) s _ = _
  rw [handler, State.pop_eq_none.mpr hstack]

/-- In a state that is not FAULTED, an instruction raises IllegalMode exactly when its mode is not in the run's table. -/
theorem exec_illegalMode_iff {i : Instr} {s : State} (hs : s.run.kind? = none) :
    (∃ t, exec i s = .next t ∧ t.run.kind? = some .illegalMode) ↔ s.legal i.opcode i.mode = false :=
  ⟨fun ⟨_, hexec, ht⟩ => faultGround_of_exec hs hexec ht, fun h => ⟨_, exec_of_illegalMode h, State.kind?_raise ..⟩⟩

/-- The modes that the default table keeps from an opcode (30_encoding.md R56). -/
theorem legalIn_default_eq_false_iff (op : Opcode) (m : Mode) : legalIn defaultLegalModes op m = false ↔
    (op ∈ [.halt, .nop, .jmp, .jz, .jnz, .jc, .jnc, .ja, .jae, .jb, .jbe] ∧ m ≠ .immediate) ∨
    (op ∈ [.store, .pop, .read, .shl, .shr] ∧ m = .immediate) := by
  rw [legalIn_default]
  cases op <;> cases m <;> decide

/-- A step that ends FAULTED raised that fault on the word it fetched: an effect leaves the engine RUNNING or HALTED. -/
theorem step_faulted {s t : State} {kind : FaultKind} (h : step s = .next t) (ht : t.run.kind? = some kind) :
    ∃ w, s.par.prog[s.pc]? = some w ∧ t = s.raise kind w := by
  obtain ⟨w, hrun, hw, ⟨i, hdec, hexec⟩ | ⟨-, rfl⟩⟩ := step_next h
  · obtain ⟨kind', -, rfl⟩ | ⟨-, p, -, effect⟩ := exec_next hexec
    · cases ht
      exact ⟨w, hw, by rw [encode_of_decode hdec]⟩
    · rw [effect.kind?_none (by rw [hrun]; rfl)] at ht
      cases ht
  · cases ht
    exact ⟨w, hw, rfl⟩

/-- The code of a kind is the one listed for it (60_exceptions.md R170). -/
theorem FaultKind.code_mem (kind : FaultKind) : (kind, kind.code) ∈
    [(FaultKind.illegalOpcode, 1), (.illegalMode, 2), (.unknownRegister, 3), (.stackUnderflow, 4)] := by
  cases kind <;> decide

/-- Settles O10: each check that fails after the ones before it raises its own fault. -/
theorem checksRaiseTheirFaultsInOrder : Obligations.ChecksRaiseTheirFaultsInOrder := fun _ =>
  ⟨fun _ => exec_of_illegalMode, fun _ => exec_of_unknownRegister, fun _ _ => exec_pop_empty⟩

/-- Settles O11: the record of a raised fault is its kind, the kind's code, `pc` and the fetched word. -/
theorem stepIntoAFaultChangesOnlyTheRunState : Obligations.StepIntoAFaultChangesOnlyTheRunState := by
  intro s t kind code index word hstep hrun
  obtain ⟨w, hw, rfl⟩ := step_faulted (kind := kind) hstep (by rw [hrun]; rfl)
  cases hrun
  exact ⟨rfl, kind.code_mem, rfl, hw⟩

/-- Settles O12: IllegalMode is raised outside the table, and the default table is a finite one. -/
theorem illegalModePairsOfTheDefaultTable : Obligations.IllegalModePairsOfTheDefaultTable := by
  intro i s htable hs
  rw [exec_illegalMode_iff hs, State.legal, htable, legalIn_default_eq_false_iff]

end Sys2Proof.Machine
end

section
/-! PROOFS. Registers and memory as places: the ids, reading back what was stored, and the canonical form
(10_state.md section 2; 20_memory.md section 2; 40_fetch_decode_dispatch.md section 2). -/

namespace Sys2Proof.Machine

/-- The id of each register (10_state.md R12). -/
theorem regIndex_eq_some_iff (k : Word) (r : Reg) :
    regIndex k = some r ↔ (k.toNat, r) ∈ [(1, Reg.a), (2, .b), (3, .c), (4, .d), (5, .e)] := by
  constructor
  · intro h
    unfold regIndex at h
    split_ifs at h <;> cases h <;> simp_all
  · intro h
    have hk : k = BitVec.ofNat 16 k.toNat := by simp
    simp only [List.mem_cons, List.not_mem_nil, or_false, Prod.mk.injEq] at h
    obtain ⟨hn, rfl⟩ | ⟨hn, rfl⟩ | ⟨hn, rfl⟩ | ⟨hn, rfl⟩ | ⟨hn, rfl⟩ := h <;> rw [hk, hn] <;> rfl

/-- A write to a place is read back there. -/
theorem Place.read_of_write {p : Place} {v : Word} {s t : State} (h : p.write v s = some t) : p.read t = v := by
  cases p <;> cases h
  · exact s.reg_setReg_same _ v
  · exact s.memRead_memWrite_same _ v

/-- The place an operand names stays the same while no register changes but the place itself: only mode 10 reads a
register, and there the place is a cell (40_fetch_decode_dispatch.md R87). -/
theorem placeOf_congr {m : Mode} {k : Word} {p : Place} {s t : State} (hp : placeOf m k s = some p)
    (hregs : ∀ r, p ≠ .register r → t.reg r = s.reg r) : placeOf m k t = some p := by
  cases m with
  | indirect =>
    obtain ⟨r, hr, rfl⟩ := Option.map_eq_some_iff.mp hp
    rw [placeOf_indirect t hr, hregs r (by simp)]
  | _ => exact hp

/-- The registers a write to a place leaves alone. -/
theorem Place.reg_of_write {p : Place} {v : Word} {s t : State} (h : p.write v s = some t) {r : Reg}
    (hr : p ≠ .register r) : t.reg r = s.reg r := by
  cases p <;> cases h
  · exact s.reg_setReg_other v fun e => hr (e ▸ rfl)
  · rfl

/-- Two canonical memories that read alike start with the same address: the lower of two would read as unwritten in the
other memory. -/
theorem Memory.not_lt_of_read_eq {a b : Nat} {v w : Word} {rest others : Memory} (h : Memory.wf ((a, v) :: rest))
    (hother : Memory.wf ((b, w) :: others))
    (hread : ∀ n, Memory.read n ((a, v) :: rest) = Memory.read n ((b, w) :: others)) : ¬a < b := by
  intro hlt
  have unlisted : ∀ c ∈ (b, w) :: others, c.1 ≠ a := by
    intro c hc
    obtain rfl | hc := List.mem_cons.mp hc
    · exact Nat.ne_of_gt hlt
    · exact Nat.ne_of_gt (Nat.lt_trans hlt (List.rel_of_pairwise_cons hother.1 hc))
  have hv := hread a
  rw [Memory.read_unlisted unlisted] at hv
  exact (h.2 (a, v) List.mem_cons_self).2 (by simpa [Memory.read] using hv)

/-- A canonical memory that reads as unwritten everywhere is empty. -/
theorem Memory.not_read_eq_nil {a : Nat} {v : Word} {rest : Memory} (h : Memory.wf ((a, v) :: rest)) :
    Memory.read a ((a, v) :: rest) ≠ Memory.read a [] := by
  simpa [Memory.read] using (h.2 (a, v) List.mem_cons_self).2

/-- The first cell of a canonical memory has the lowest address. -/
theorem Memory.head_unlisted {a : Nat} {v : Word} {rest : Memory} (h : Memory.wf ((a, v) :: rest)) :
    ∀ c ∈ rest, c.1 ≠ a :=
  fun _ hc => Nat.ne_of_gt (List.rel_of_pairwise_cons h.1 hc)

/-- The rest of a canonical memory is canonical. -/
theorem Memory.wf_tail {c : Nat × Word} {rest : Memory} (h : Memory.wf (c :: rest)) : Memory.wf rest :=
  ⟨h.1.tail, fun d hd => h.2 d (List.mem_cons_of_mem _ hd)⟩

/-- What a memory without its first cell reads as follows from what the whole reads as. -/
theorem Memory.read_rest {a : Nat} {v : Word} {rest : Memory} (h : Memory.wf ((a, v) :: rest)) (n : Nat) :
    Memory.read n rest = if n = a then Memory.unwritten else Memory.read n ((a, v) :: rest) := by
  split
  · next hn => rw [hn, Memory.read_unlisted (Memory.head_unlisted h)]
  · next hn => simp [Memory.read, Ne.symm hn]

/-- The canonical form is determined by what it reads as. -/
theorem Memory.ext_of_wf {mem other : Memory} (h : mem.wf) (hother : other.wf)
    (hread : ∀ a, Memory.read a mem = Memory.read a other) : mem = other := by
  induction mem generalizing other with
  | nil =>
    cases other with
    | nil => rfl
    | cons d others => exact absurd (hread d.1).symm (Memory.not_read_eq_nil hother)
  | cons c rest ih =>
    cases other with
    | nil => exact absurd (hread c.1) (Memory.not_read_eq_nil h)
    | cons d others =>
      obtain ⟨a, v⟩ := c
      obtain ⟨b, w⟩ := d
      obtain rfl : a = b := Nat.le_antisymm
        (Nat.not_lt.mp (Memory.not_lt_of_read_eq hother h fun n => (hread n).symm))
        (Nat.not_lt.mp (Memory.not_lt_of_read_eq h hother hread))
      obtain rfl : v = w := by simpa [Memory.read] using hread a
      have hrest : rest = others := ih (Memory.wf_tail h) (Memory.wf_tail hother) fun n => by
        rw [Memory.read_rest h, Memory.read_rest hother, hread n]
      rw [hrest]

/-- Settles O15: the five ids, and no other operand field. -/
theorem registerIdsNameAToE : Obligations.RegisterIdsNameAToE := regIndex_eq_some_iff

/-- Settles O16: the store writes the place the operand names and leaves it the operand's place. -/
theorem storedOperandIsReadBack : Obligations.StoredOperandIsReadBack := by
  intro m k v s t h
  obtain ⟨p, hp, hwrite⟩ := Option.bind_eq_some_iff.mp h
  rw [resolveValue_of_placeOf (placeOf_congr hp fun _ hr => Place.reg_of_write hwrite hr), Place.read_of_write hwrite]

/-- Settles O17: by induction on both lists, whose first addresses agree. -/
theorem memoriesThatReadAlikeAreEqual : Obligations.MemoriesThatReadAlikeAreEqual := fun _ _ => Memory.ext_of_wf

end Sys2Proof.Machine
end

section
/-! PROOFS. Data movement, the streams, HALT and NOP (41_data_movement.md; 44_system_io.md). -/

namespace Sys2Proof.Machine

/-- An executable instruction is its handler on the place its operand names, whose Word is the operand's value. -/
theorem admitted_value {i : Instr} {s : State} (h : Executable i s) :
    ∃ p, resolveValue i.mode i.operand s = some (p.read s) ∧ ∀ handler, admitted i s handler = handler p := by
  obtain ⟨p, hp, handler⟩ := admitted_of_executable h
  exact ⟨p, resolveValue_of_placeOf hp, handler⟩

/-- A place other than an Immediate takes a Word, without moving `pc`. -/
theorem Place.write_of_mode {m : Mode} {k : Word} {s : State} {p : Place} (hp : placeOf m k s = some p)
    (hm : m ≠ .immediate) (v : Word) (u : State) : ∃ t, p.write v u = some t ∧ t.pc = u.pc := by
  obtain ⟨w, rfl, -⟩ | ⟨r, -, hwrite⟩ | ⟨addr, -, hwrite⟩ := p.write_cases v u
  · exact absurd ((placeOf_immediate_iff hp).mp ⟨w, rfl⟩) hm
  · exact ⟨_, hwrite, rfl⟩
  · exact ⟨_, hwrite, rfl⟩

/-- The end of STORE, POP and READ in every mode that names a place: `ResolveStore` against a state `u` with the
registers of the state the place was resolved in, then `pc` moves on. -/
theorem storeAndAdvance_of_mode {m : Mode} {k : Word} {s u : State} {p : Place} (hp : placeOf m k s = some p)
    (hm : m ≠ .immediate) (hregs : u.regs = s.regs) (v : Word) :
    ∃ t, resolveStore m k v u = some t ∧ storeAndAdvance p v u = .next { t with pc := u.pc + 1 } := by
  obtain ⟨t, hwrite, hpc⟩ := Place.write_of_mode hp hm v u
  have hpu : placeOf m k u = some p := placeOf_congr hp fun r _ => by simp only [State.reg, hregs]
  refine ⟨t, (resolveStore_of_placeOf v hpu).trans hwrite, ?_⟩
  simp [storeAndAdvance, hwrite, State.advance, hpc]

/-- An executable instruction in mode 00 is its handler on its operand field. -/
theorem admitted_immediate {i : Instr} {s : State} (h : Executable i s) (hm : i.mode = .immediate)
    (handler : Place → Result) : admitted i s handler = handler (.immediate i.operand) := by
  obtain ⟨p, hp, hhandler⟩ := admitted_of_executable h
  rw [hm, placeOf_immediate] at hp
  rw [hhandler, Option.some.inj hp]

/-- `In()` when `IN` has a Word at `inpos`. -/
theorem State.takeInput_of_wordAt {s : State} {v : Word} (h : s.par.input.wordAt s.inpos = some v) :
    s.takeInput = some (v, { s with inpos := s.inpos + 1 }) := by
  simp [State.takeInput, h]

/-- `IN` holds its listed Words. -/
theorem InputSource.wordAt_given {src : InputSource} {n : Nat} {v : Word} (h : src.given[n]? = some v) :
    src.wordAt n = some v := by
  simp [InputSource.wordAt, h]

/-- Past its listed Words `IN` ends or goes on for ever. -/
theorem InputSource.wordAt_past {src : InputSource} {n : Nat} (h : src.given.length ≤ n) :
    src.wordAt n = none ↔ src.tail = .ended := by
  cases htail : src.tail <;> simp [InputSource.wordAt, List.getElem?_eq_none h, htail]

/-- Settles O18: the value goes to A. -/
theorem loadTakesTheOperand : Obligations.LoadTakesTheOperand := by
  intro m k s hexec
  obtain ⟨p, hv, handler⟩ := admitted_value hexec
  exact ⟨p.read s, hv, handler _⟩

/-- Settles O19: STORE ends with a store to the place. -/
theorem storeWritesTheAccumulator : Obligations.StoreWritesTheAccumulator := by
  intro m k s hm hexec
  obtain ⟨p, hp, handler⟩ := admitted_of_executable hexec
  obtain ⟨t, hstore, hend⟩ := storeAndAdvance_of_mode hp hm rfl s.regs.a
  exact ⟨t, hstore, (handler _).trans hend⟩

/-- Settles O20: the value goes to the end of the stack. -/
theorem pushAppendsTheOperand : Obligations.PushAppendsTheOperand := by
  intro m k s hexec
  obtain ⟨p, hv, handler⟩ := admitted_value hexec
  exact ⟨p.read s, hv, handler _⟩

/-- An executable POP on a stack with a newest entry stores that in the state without it. -/
theorem exec_pop_concat {m : Mode} {k : Word} {s : State} (h : Executable (.pop m k) s) {rest : List Word} {v : Word}
    (hstack : s.stack = rest ++ [v]) :
    ∃ p, placeOf m k s = some p ∧ exec (.pop m k) s = storeAndAdvance p v { s with stack := rest } := by
  obtain ⟨p, hp, handler⟩ := admitted_of_executable h
  refine ⟨p, hp, ?_⟩
  change admitted (.pop m k) s _ = _
  rw [handler, State.pop_concat hstack]

/-- An executable READ with a Word at `inpos` stores that in the state with it consumed. -/
theorem exec_read_wordAt {m : Mode} {k : Word} {s : State} (h : Executable (.read m k) s) {v : Word}
    (hinput : s.par.input.wordAt s.inpos = some v) :
    ∃ p, placeOf m k s = some p ∧
      exec (.read m k) s = storeAndAdvance p v { s with inpos := s.inpos + 1 } := by
  obtain ⟨p, hp, handler⟩ := admitted_of_executable h
  refine ⟨p, hp, ?_⟩
  change admitted (.read m k) s _ = _
  rw [handler, State.takeInput_of_wordAt hinput]

/-- Settles O21: POP ends with a store to the place, in the state without the newest entry. -/
theorem popStoresTheNewestEntry : Obligations.PopStoresTheNewestEntry := by
  intro m k s rest v hm hexec hstack
  obtain ⟨p, hp, hpop⟩ := exec_pop_concat hexec hstack
  obtain ⟨t, hstore, hend⟩ := storeAndAdvance_of_mode (u := { s with stack := rest }) hp hm rfl v
  exact ⟨t, hstore, hpop.trans hend⟩

/-- Settles O22: in mode 00 the three instructions end with a store to an Immediate. -/
theorem storingToAnImmediateStops : Obligations.StoringToAnImmediateStops := by
  refine fun k s => ⟨fun hexec => admitted_immediate hexec rfl _, fun hexec hstack => ?_, fun hexec hinput => ?_⟩
  · obtain ⟨rest, v, hstack⟩ := (List.eq_nil_or_concat' s.stack).resolve_left hstack
    obtain ⟨p, hp, hpop⟩ := exec_pop_concat hexec hstack
    cases hp
    exact hpop
  · obtain ⟨v, hv⟩ := Option.ne_none_iff_exists'.mp hinput
    obtain ⟨p, hp, hread⟩ := exec_read_wordAt hexec hv
    cases hp
    exact hread

/-- Settles O37: HALT reads neither the place nor the operand field. -/
theorem haltEndsTheRun : Obligations.HaltEndsTheRun := by
  intro m k s hexec
  obtain ⟨p, -, handler⟩ := admitted_value hexec
  exact handler _

/-- Settles O38: NOP reads neither the place nor the operand field. -/
theorem nopOnlyMovesOn : Obligations.NopOnlyMovesOn := by
  intro m k s hexec
  obtain ⟨p, -, handler⟩ := admitted_value hexec
  exact handler _

/-- Settles O39: READ ends with a store to the place, in the state with the Word consumed. -/
theorem readStoresTheNextCharacter : Obligations.ReadStoresTheNextCharacter := by
  refine fun m k s hexec => ⟨fun v hv hm => ?_, exec_read_exhausted hexec, fun v => InputSource.wordAt_given,
    InputSource.wordAt_past⟩
  obtain ⟨p, hp, hread⟩ := exec_read_wordAt hexec hv
  obtain ⟨t, hstore, hend⟩ := storeAndAdvance_of_mode (u := { s with inpos := s.inpos + 1 }) hp hm rfl v
  exact ⟨t, hstore, hread.trans hend⟩

/-- Settles O40: the value goes to the end of the output. -/
theorem printAppendsTheOperand : Obligations.PrintAppendsTheOperand := by
  intro m k s hexec
  obtain ⟨p, hv, handler⟩ := admitted_value hexec
  exact ⟨p.read s, hv, handler _⟩

end Sys2Proof.Machine
end

section
/-! PROOFS. The ALU (42_alu.md): results and flags as arithmetic, the write-back, and the faults of the default table. -/

namespace Sys2Proof.Machine

/-- With the default table, an instruction other than POP fails at check 2 or 3 only. -/
theorem raisesOnly_illegalMode_unknownRegister {i : Instr} (hpop : i.opcode ≠ .pop) :
    raisesOnly i [.illegalMode, .unknownRegister] := by
  intro s t _ hs h kind ht
  have ground := faultGround_of_exec hs h ht
  cases kind with
  | illegalOpcode => exact ground.elim
  | illegalMode | unknownRegister => simp
  | stackUnderflow =>
    obtain ⟨-, hop, -⟩ := ground
    exact absurd hop hpop

/-- A mode that the default table does not give the opcode raises IllegalMode in every state. -/
theorem alwaysIllegalMode_of_default {i : Instr} (h : legalIn defaultLegalModes i.opcode i.mode = false) :
    alwaysIllegalMode i :=
  fun s htable => exec_of_illegalMode (by rw [State.legal, htable, h])

/-- The sum of two Words as a number, modulo 65536 (42_alu.md R110). -/
theorem ofNat_sum (a b : Word) : BitVec.ofNat 16 ((a.toNat + b.toNat) % 65536) = a + b :=
  BitVec.eq_of_toNat_eq (by simp)

/-- The addition of the two's complement is the difference, modulo 65536 (42_alu.md R111, R114). -/
theorem toNat_add_neg16 (a v : Word) :
    (a.toNat + (neg16 v).toNat) % 65536 = (a.toNat + 65536 - v.toNat) % 65536 := by
  have := v.isLt
  rw [neg16_eq, BitVec.toNat_neg]
  omega

/-- The difference is 0 exactly for equal Words. -/
theorem sub_mod_eq_zero_iff (a v : Word) : (a.toNat + 65536 - v.toNat) % 65536 = 0 ↔ a = v := by
  have := a.isLt
  have := v.isLt
  rw [← BitVec.toNat_inj]
  omega

/-- The flags of SUB and CMP (42_alu.md R114, R123, R125). -/
theorem State.setSumFlags_neg16 (a v : Word) (s : State) :
    s.setSumFlags (add16 a (neg16 v)) = { s with flags := {
      zero := decide ((a.toNat + 65536 - v.toNat) % 65536 = 0)
      carry := decide (v.toNat ≠ 0 ∧ v.toNat ≤ a.toNat)
      sign := decide (32768 ≤ (a.toNat + 65536 - v.toNat) % 65536) } } := by
  rw [State.setSumFlags_add16, ← add16_snd, add16_neg16_carry, toNat_add_neg16]

/-- An executable SUB accumulates the sum of A and the two's complement of the operand's value. -/
theorem exec_sub_of_executable {m : Mode} {k : Word} {s : State} (h : Executable (.sub m k) s) :
    ∃ v, resolveValue m k s = some v ∧ exec (.sub m k) s = .next (s.accumulate (add16 s.regs.a (neg16 v))) := by
  obtain ⟨p, hv, handler⟩ := admitted_value h
  exact ⟨p.read s, hv, handler _⟩

/-- An executable CMP sets the flags of that sum. -/
theorem exec_cmp_of_executable {m : Mode} {k : Word} {s : State} (h : Executable (.cmp m k) s) :
    ∃ v, resolveValue m k s = some v ∧
      exec (.cmp m k) s = .next (s.setSumFlags (add16 s.regs.a (neg16 v))).advance := by
  obtain ⟨p, hv, handler⟩ := admitted_value h
  exact ⟨p.read s, hv, handler _⟩

/-- Settles O24: the sum of A and the two's complement is the difference, and its carry has the closed form. -/
theorem subAddsTheComplement : Obligations.SubAddsTheComplement := by
  intro m k
  have hpop : Opcode.sub ≠ .pop := by decide
  refine ⟨encode_ofParts_toNat .sub m k, raisesOnly_unknownRegister (mem_anyMode m) hpop, fun s hexec => ?_⟩
  obtain ⟨v, hv, hsub⟩ := exec_sub_of_executable hexec
  have hdiff : s.regs.a + neg16 v = BitVec.ofNat 16 ((s.regs.a.toNat + 65536 - v.toNat) % 65536) := by
    rw [← toNat_add_neg16, ofNat_sum]
  refine ⟨v, hv, ?_⟩
  rw [hsub, State.accumulate_add16, hdiff, ← add16_snd, add16_neg16_carry, toNat_add_neg16]

/-- Settles O25: the flags of SUB, where the difference is 0 exactly for equal Words. -/
theorem cmpSetsFlagsOnly : Obligations.CmpSetsFlagsOnly := by
  intro m k
  have hpop : Opcode.cmp ≠ .pop := by decide
  refine ⟨encode_ofParts_toNat .cmp m k, raisesOnly_unknownRegister (mem_anyMode m) hpop, fun s hexec => ?_⟩
  obtain ⟨v, hv, hcmp⟩ := exec_cmp_of_executable hexec
  refine ⟨v, hv, ?_⟩
  rw [hcmp, State.setSumFlags_neg16]
  simp only [sub_mod_eq_zero_iff]
  rfl

/-- The write-back of an in-place instruction is one to the place its operand names, if that is not an Immediate. -/
theorem writtenBack_of_placeOf {m : Mode} {k : Word} {s : State} {p : Place} (r : Word)
    (hp : placeOf m k s = some p) : writtenBack m k r s = some (p.writeBack r s) := by
  unfold writtenBack
  split
  · next hm =>
    obtain ⟨v, rfl⟩ := (placeOf_immediate_iff hp).mpr hm
    rfl
  · next hm =>
    obtain ⟨t, hwrite, -⟩ := Place.write_of_mode hp hm r s
    rw [resolveStore_of_placeOf r hp, Place.writeBack, hwrite]
    rfl

/-- Settles O26: the write-back of the sum, whose flags are read off the operand. -/
theorem incAndDecChangeTheOperandByOne : Obligations.IncAndDecChangeTheOperandByOne := by
  refine fun m k s => ⟨fun hexec => ?_, fun hexec => ?_⟩
  · obtain ⟨p, hp, handler⟩ := admitted_of_executable hexec
    have hv := (p.read s).isLt
    have hsum : BitVec.ofNat 16 (((p.read s).toNat + 1) % 65536) = p.read s + 0x0001 := ofNat_sum (p.read s) 0x0001
    have hzero : ((p.read s).toNat + 1) % 65536 = 0 ↔ (p.read s).toNat = 65535 := by omega
    have hcarry : 65535 < (p.read s).toNat + 1 ↔ (p.read s).toNat = 65535 := by omega
    have hsign : 32768 ≤ ((p.read s).toNat + 1) % 65536 ↔ 32767 ≤ (p.read s).toNat ∧ (p.read s).toNat < 65535 := by
      omega
    refine ⟨p.read s, _, resolveValue_of_placeOf hp, writtenBack_of_placeOf _ hp, (handler _).trans ?_⟩
    rw [State.addInPlace_eq, hsum]
    simp [hzero, hcarry, hsign]
  · obtain ⟨p, hp, handler⟩ := admitted_of_executable hexec
    have hv := (p.read s).isLt
    have hsum : BitVec.ofNat 16 (((p.read s).toNat + 65535) % 65536) = p.read s + 0xFFFF :=
      ofNat_sum (p.read s) 0xFFFF
    have hzero : ((p.read s).toNat + 65535) % 65536 = 0 ↔ (p.read s).toNat = 1 := by omega
    have hcarry : 65535 < (p.read s).toNat + 65535 ↔ (p.read s).toNat ≠ 0 := by omega
    have hsign : 32768 ≤ ((p.read s).toNat + 65535) % 65536 ↔ (p.read s).toNat = 0 ∨ 32768 < (p.read s).toNat := by
      omega
    refine ⟨p.read s, _, resolveValue_of_placeOf hp, writtenBack_of_placeOf _ hp, (handler _).trans ?_⟩
    rw [State.addInPlace_eq, hsum]
    simp [hzero, hcarry, hsign]

/-! The write-back leaves `pc` and the flags alone. -/

@[simp] theorem Place.pc_writeBack (p : Place) (v : Word) (s : State) : (p.writeBack v s).pc = s.pc := by
  cases p <;> rfl

@[simp] theorem Place.flags_writeBack (p : Place) (v : Word) (s : State) : (p.writeBack v s).flags = s.flags := by
  cases p <;> rfl

/-- The end of SHL and SHR: `Z` and `SF` from the result, and `pc`. -/
theorem State.setZS_advance (r : Word) (s : State) : (s.setZS r).advance = { s with
    flags := { zero := decide (r.toNat = 0), carry := s.flags.carry, sign := decide (32768 ≤ r.toNat) }
    pc := s.pc + 1 } := by
  rw [State.setZS, Flags.setZS_eq]
  rfl

/-- Settles O27: each bit of the result, and the flags of the logic instructions. -/
theorem xorAndOrCombineBitByBit : Obligations.XorAndOrCombineBitByBit := by
  intro m k s i f hrow hexec
  simp only [List.mem_cons, List.not_mem_nil, or_false, Prod.mk.injEq] at hrow
  obtain ⟨rfl, rfl⟩ | ⟨rfl, rfl⟩ | ⟨rfl, rfl⟩ := hrow <;>
    obtain ⟨p, hv, handler⟩ := admitted_value hexec
  · exact ⟨p.read s, s.regs.a ^^^ p.read s, hv, fun _ _ => BitVec.getLsbD_xor, handler _⟩
  · exact ⟨p.read s, s.regs.a &&& p.read s, hv, fun _ _ => BitVec.getLsbD_and, handler _⟩
  · exact ⟨p.read s, s.regs.a ||| p.read s, hv, fun _ _ => BitVec.getLsbD_or, handler _⟩

/-- The complement of a Word as a number. -/
theorem toNat_complement (v : Word) : (~~~v).toNat = 65535 - v.toNat := by simp

/-- The complement of a Word is 0xFFFF minus it. -/
theorem complement_eq (v : Word) : ~~~v = BitVec.ofNat 16 (65535 - v.toNat) := by
  rw [← toNat_complement, BitVec.ofNat_toNat, BitVec.setWidth_eq]

/-- Settles O28: the complement is 0xFFFF minus the operand, which gives the flags. -/
theorem notComplementsIntoTheAccumulator : Obligations.NotComplementsIntoTheAccumulator := by
  intro m k s hexec
  obtain ⟨p, hv, handler⟩ := admitted_value hexec
  have hlt := (p.read s).isLt
  have hzero : 65535 - (p.read s).toNat = 0 ↔ (p.read s).toNat = 65535 := by omega
  have hsign : 32768 ≤ 65535 - (p.read s).toNat ↔ (p.read s).toNat < 32768 := by omega
  refine ⟨p.read s, hv, (handler _).trans ?_⟩
  rw [State.setLogic_eq, toNat_complement, complement_eq]
  simp only [hzero, hsign]

/-- Settles O29: the double, its flags, and the bit shifted out as the carry. -/
theorem shlShiftsTopBitIntoCarry : Obligations.ShlShiftsTopBitIntoCarry := by
  intro m k
  have hpop : Opcode.shl ≠ .pop := by decide
  refine ⟨encode_ofParts_toNat .shl m k, raisesOnly_illegalMode_unknownRegister hpop, alwaysIllegalMode_of_default rfl,
    fun s hexec => ?_⟩
  obtain ⟨p, hp, handler⟩ := admitted_of_executable hexec
  have hdouble : BitVec.ofNat 16 ((p.read s).toNat * 2 % 65536) = shiftLeft1 (p.read s) :=
    BitVec.eq_of_toNat_eq (by simp)
  refine ⟨p.read s, _, resolveValue_of_placeOf hp, writtenBack_of_placeOf _ hp, (handler _).trans ?_⟩
  rw [State.setZS_advance, shiftLeft1_toNat, topBit_eq, hdouble]
  simp

/-- Settles O30: half the operand, whose top bit is clear. -/
theorem shrShiftsRightAndKeepsCarry : Obligations.ShrShiftsRightAndKeepsCarry := by
  intro m k
  have hpop : Opcode.shr ≠ .pop := by decide
  refine ⟨encode_ofParts_toNat .shr m k, raisesOnly_illegalMode_unknownRegister hpop, alwaysIllegalMode_of_default rfl,
    fun s hexec => ?_⟩
  obtain ⟨p, hp, handler⟩ := admitted_of_executable hexec
  have hlt := (p.read s).isLt
  have hzero : (p.read s).toNat / 2 = 0 ↔ (p.read s).toNat < 2 := by omega
  have hsign : ¬32768 ≤ (p.read s).toNat / 2 := by omega
  refine ⟨p.read s, _, resolveValue_of_placeOf hp, writtenBack_of_placeOf _ hp, (handler _).trans ?_⟩
  rw [State.setZS_advance, shiftRight1_toNat]
  simp [hzero, hsign, shiftRight1]

/-- Id 1 is A: in mode 01 the operand's value is A. -/
theorem resolveValue_register_one (s : State) : resolveValue .register 1 s = some s.regs.a := rfl

/-- In mode 10 with id 1 the operand's value is the cell that A addresses. -/
theorem resolveValue_indirect_one (s : State) : resolveValue .indirect 1 s = some (s.memRead s.regs.a) := rfl

/-- What each instruction of the ALU, and LOAD, leaves in A, by the operand's value `v`. -/
theorem exec_regs_a {m : Mode} {k v : Word} {s : State} {i : Instr} {new : Word} (hv : resolveValue m k s = some v)
    (hrow : (i, new) ∈ [(Instr.add m k, s.regs.a + v), (.sub m k, s.regs.a + neg16 v), (.xor m k, s.regs.a ^^^ v),
      (.and m k, s.regs.a &&& v), (.or m k, s.regs.a ||| v), (.not m k, ~~~v), (.cmp m k, s.regs.a), (.load m k, v)])
    (hexec : Executable i s) : ∃ t, exec i s = .next t ∧ t.regs.a = new := by
  have hfields : i.mode = m ∧ i.operand = k := by
    revert hrow
    simp only [List.mem_cons, List.not_mem_nil, or_false, Prod.mk.injEq]
    rintro (h | h | h | h | h | h | h | h) <;> obtain ⟨rfl, -⟩ := h <;> exact ⟨rfl, rfl⟩
  obtain ⟨hm, hk⟩ := hfields
  obtain ⟨p, hp, handler⟩ := admitted_value hexec
  rw [hm, hk, hv] at hp
  obtain rfl : v = p.read s := Option.some.inj hp
  simp only [List.mem_cons, List.not_mem_nil, or_false, Prod.mk.injEq] at hrow
  obtain h | h | h | h | h | h | h | h := hrow <;> obtain ⟨rfl, rfl⟩ := h <;> refine ⟨_, handler _, ?_⟩
  · exact add16_fst ..
  · exact add16_fst ..
  all_goals rfl

/-- Settles O31: every value is read before A is written, so the operand's value is the old A or the cell it addresses. -/
theorem operandThatNamesASeesTheOldA : Obligations.OperandThatNamesASeesTheOldA := by
  rintro i s old new rfl hrow hexec
  have hdouble : BitVec.ofNat 16 (2 * s.regs.a.toNat % 65536) = s.regs.a + s.regs.a := by
    rw [Nat.two_mul, ofNat_sum]
  rw [List.mem_append] at hrow
  obtain hrow | hrow := hrow
  · refine exec_regs_a (resolveValue_register_one s) ?_ hexec
    simpa [hdouble, complement_eq] using hrow
  · refine exec_regs_a (resolveValue_indirect_one s) ?_ hexec
    simp only [ofNat_sum, List.mem_cons, List.not_mem_nil, or_false] at hrow
    obtain h | h := hrow <;> simp [h]

end Sys2Proof.Machine
end

section
/-! PROOFS. Jumps: their targets, their predicates, and what those say after CMP, SUB, DEC and SHL
(43_control_transfer.md). -/

namespace Sys2Proof.Machine

/-- With the default table, an instruction for mode 00 alone raises IllegalMode only: POP is none, and mode 00 names no
register. -/
theorem raisesOnly_illegalMode {i : Instr} (hmodes : defaultModes i.opcode = [.immediate]) :
    raisesOnly i [.illegalMode] := by
  intro s t htable hs h kind ht
  have hpop : i.opcode ≠ .pop := by
    intro hop
    rw [hop] at hmodes
    cases hmodes
  have hkind := raisesOnly_illegalMode_unknownRegister hpop s t htable hs h kind ht
  simp only [List.mem_cons, List.not_mem_nil, or_false] at hkind
  obtain rfl | rfl := hkind
  · exact List.mem_singleton_self _
  · obtain ⟨hlegal, hreg⟩ := faultGround_of_exec hs h ht
    have hm : i.mode = .immediate := by simpa [State.legal, htable, legalIn_default, hmodes] using hlegal
    simp [Instr.registerNamed, hm, Mode.namesRegister] at hreg

/-- With the default table, an instruction for mode 00 alone raises IllegalMode in every other mode. -/
theorem alwaysIllegalMode_of_ne_immediate {i : Instr} (hmodes : defaultModes i.opcode = [.immediate])
    (hm : i.mode ≠ .immediate) : alwaysIllegalMode i :=
  alwaysIllegalMode_of_default (by simpa [legalIn_default, hmodes] using hm)

/-- A jump whose predicate says `P` goes to the target under `P`. -/
theorem State.jumpIf_of_iff {taken : Bool} {P : Prop} [Decidable P] (h : taken = true ↔ P) (k : Word) (s : State) :
    s.jumpIf taken k = { s with pc := if P then k.toNat / 3 else s.pc + 1 } := by
  rw [State.jumpIf_eq]
  simp only [h, jumpTarget]

/-- An executable conditional jump whose predicate says `P` goes to the target under `P`. -/
theorem exec_jump {i : Instr} {s : State} {taken : Bool} {k : Word} (hexec : Executable i s)
    (hi : exec i s = admitted i s fun _ => .next (s.jumpIf taken k)) {P : Prop} [Decidable P] (h : taken = true ↔ P) :
    exec i s = .next { s with pc := if P then k.toNat / 3 else s.pc + 1 } := by
  obtain ⟨p, -, handler⟩ := admitted_of_executable hexec
  rw [hi, handler, State.jumpIf_of_iff h]

/-- An executable jump on a flag that is false goes to the next instruction under the flag. -/
theorem exec_jump_unless {i : Instr} {s : State} {flag : Bool} {k : Word} (hexec : Executable i s)
    (hi : exec i s = admitted i s fun _ => .next (s.jumpIf (!flag) k)) :
    exec i s = .next { s with pc := if flag = true then s.pc + 1 else k.toNat / 3 } := by
  have hjump := exec_jump hexec hi (P := ¬flag = true) (by simp)
  simpa only [ite_not] using hjump

/-- Settles O32: the target is the operand divided by 3, and a Word divided by 3 is 21845 at most. -/
theorem jmpGoesToTheIndexOfTheAddress : Obligations.JmpGoesToTheIndexOfTheAddress := by
  intro m k s n hexec hlow hhigh
  have hk := k.isLt
  have htarget : jumpTarget k = n := by
    unfold jumpTarget
    omega
  obtain ⟨p, -, handler⟩ := admitted_of_executable hexec
  exact ⟨by omega, htarget ▸ handler _⟩

/-- CMP in the terms of the conditional jumps after it. -/
theorem exec_cmp_flags {m : Mode} {k : Word} {s : State} (h : Executable (.cmp m k) s) :
    ∃ v t, resolveValue m k s = some v ∧ exec (.cmp m k) s = .next t ∧ (t.flags.zero = true ↔ s.regs.a = v) ∧
      (t.flags.carry = true ↔ v ≠ 0 ∧ v.toNat ≤ s.regs.a.toNat) := by
  obtain ⟨-, -, hcmp⟩ := cmpSetsFlagsOnly m k
  obtain ⟨v, hv, hexec⟩ := hcmp s h
  exact ⟨v, _, hv, hexec, decide_eq_true_iff, by simp [← BitVec.toNat_inj]⟩

/-- Settles O33: the predicates of the two jumps, and the Zero flag that CMP and DEC leave. -/
theorem jzAndJnzTestZero : Obligations.JzAndJnzTestZero := by
  refine ⟨fun m k => ⟨encode_ofParts_toNat .jz .immediate k, raisesOnly_illegalMode rfl,
    encode_ofParts_toNat .jnz .immediate k, raisesOnly_illegalMode rfl,
    fun hm => ⟨alwaysIllegalMode_of_ne_immediate rfl hm, alwaysIllegalMode_of_ne_immediate rfl hm⟩,
    fun s => ⟨fun hexec => exec_jump hexec rfl Iff.rfl, fun hexec => exec_jump_unless hexec rfl⟩⟩,
    fun m k s => ⟨fun hexec => ?_, fun hexec => ?_⟩⟩
  · obtain ⟨v, t, hv, hcmp, hzero, -⟩ := exec_cmp_flags hexec
    exact ⟨v, t, hv, hcmp, hzero⟩
  · obtain ⟨-, hdec⟩ := incAndDecChangeTheOperandByOne m k s
    obtain ⟨v, t, hv, -, hnext⟩ := hdec hexec
    have hone : v.toNat = 1 ↔ v - 1 = 0 := by bv_omega
    exact ⟨v, _, hv, hnext, by simpa using hone⟩

/-- Settles O34: the predicates of the two jumps, and the Carry flag that CMP, SUB and SHL leave. -/
theorem jcAndJncTestCarry : Obligations.JcAndJncTestCarry := by
  refine ⟨fun m k => ⟨encode_ofParts_toNat .jc .immediate k, raisesOnly_illegalMode rfl,
    encode_ofParts_toNat .jnc .immediate k, raisesOnly_illegalMode rfl,
    fun hm => ⟨alwaysIllegalMode_of_ne_immediate rfl hm, alwaysIllegalMode_of_ne_immediate rfl hm⟩,
    fun s => ⟨fun hexec => exec_jump hexec rfl Iff.rfl, fun hexec => exec_jump_unless hexec rfl⟩⟩,
    fun m k s => ⟨fun hexec => ?_, fun hexec => ?_, fun hexec => ?_⟩⟩
  · obtain ⟨v, t, hv, hcmp, -, hcarry⟩ := exec_cmp_flags hexec
    exact ⟨v, t, hv, hcmp, hcarry⟩
  · obtain ⟨-, -, hsub⟩ := subAddsTheComplement m k
    obtain ⟨v, hv, hnext⟩ := hsub s hexec
    exact ⟨v, _, hv, hnext, by simp [← BitVec.toNat_inj]⟩
  · obtain ⟨-, -, -, hshl⟩ := shlShiftsTopBitIntoCarry m k
    obtain ⟨v, t, hv, -, hnext⟩ := hshl s hexec
    exact ⟨v, _, hv, hnext, (topBit_eq v).symm⟩

/-- Settles O35: each predicate as a proposition over `SF` and `Z`. -/
theorem jaToJbeTestSignAndZero : Obligations.JaToJbeTestSignAndZero := by
  intro m k s i taken _ hrow hexec
  obtain ⟨rfl, h⟩ | ⟨rfl, h⟩ | ⟨rfl, h⟩ | ⟨rfl, h⟩ := hrow <;> refine exec_jump hexec rfl ?_ <;> simp [h]

/-- Settles O36: CMP leaves in `Z` and `SF` whether the difference is 0 and whether it is 0x8000 or more. -/
theorem compareThenBranchFollowsTheDifference : Obligations.CompareThenBranchFollowsTheDifference := by
  intro m mj k kj s hcmp
  obtain ⟨v, hv, hexec⟩ := exec_cmp_of_executable hcmp
  rw [State.setSumFlags_neg16] at hexec
  refine ⟨v, _, hv, hexec, ?_⟩
  rintro d rfl
  refine ⟨fun h => ?_, fun h => ?_, fun h => ?_, fun h => ?_⟩
  · refine jaToJbeTestSignAndZero mj kj _ _ _ (.inl ⟨rfl, ?_⟩) h
    simp
    omega
  · refine jaToJbeTestSignAndZero mj kj _ _ _ (.inr (.inl ⟨rfl, ?_⟩)) h
    simp
    omega
  · refine jaToJbeTestSignAndZero mj kj _ _ _ (.inr (.inr (.inl ⟨rfl, ?_⟩))) h
    simp
    omega
  · refine jaToJbeTestSignAndZero mj kj _ _ _ (.inr (.inr (.inr ⟨rfl, ?_⟩))) h
    simp
    omega

end Sys2Proof.Machine
end

section
/-! PROOFS. Frames over all instructions: registers, memory, flags, `pc` and the run state (10_state.md sections 2, 3, 4
and 7; 20_memory.md section 2). -/

namespace Sys2Proof.Machine

/-- Settles O41: the registers an effect may write, and a fault writes none. -/
theorem onlyTheDestinationRegisterChanges : Obligations.OnlyTheDestinationRegisterChanges := by
  intro i s t r hexec ha hplace
  obtain ⟨kind, -, rfl⟩ | ⟨-, p, hp, effect⟩ := exec_next hexec
  · exact s.reg_raise r kind (encode i)
  · exact effect.regs r ha fun hop e => hplace hop (e ▸ hp)

/-- Settles O42: the cell an effect may write, and a fault writes none. -/
theorem onlyTheDestinationCellChanges : Obligations.OnlyTheDestinationCellChanges := by
  intro i s t other hexec hplace
  obtain ⟨kind, -, rfl⟩ | ⟨-, p, hp, effect⟩ := exec_next hexec
  · exact s.memRead_raise other kind (encode i)
  · exact effect.cells other fun hop e => hplace hop (e ▸ hp)

/-- Settles O43: an effect writes no flag, or `Z` and `SF` alone, or all three. -/
theorem flagsAreWrittenOnlyByTheirInstructions : Obligations.FlagsAreWrittenOnlyByTheirInstructions := by
  intro i s t hexec
  obtain ⟨kind, -, rfl⟩ | ⟨-, p, -, effect⟩ := exec_next hexec
  · exact ⟨fun _ => rfl, fun _ => rfl⟩
  · obtain hflags | ⟨hop, r, hflags⟩ | ⟨hop, r, c, hflags⟩ := effect.flags
    · exact ⟨fun _ => by rw [hflags], fun _ => hflags⟩
    · exact ⟨fun _ => by rw [hflags, Flags.carry_setZS], fun hnot => absurd (by simp_all) hnot⟩
    · exact ⟨fun hnot => absurd hop hnot, fun hnot => absurd (by simp_all) hnot⟩

/-- Settles O44: an effect moves `pc` and ends the run only for HALT, and a fault changes the run state alone. -/
theorem pcAndRunStateMoveAsTheStepSays : Obligations.PcAndRunStateMoveAsTheStepSays := by
  intro i s t hexec hs
  obtain ⟨kind, -, rfl⟩ | ⟨-, p, -, effect⟩ := exec_next hexec
  · exact ⟨fun hnone => (nomatch hnone), fun _ => rfl⟩
  · refine ⟨fun _ => ⟨fun hnot => ?_, effect.pc.imp_right And.right, fun hop => ?_⟩,
      fun hfault => absurd (effect.kind?_none hs) hfault⟩
    · obtain hpc | ⟨hop, -⟩ := effect.pc
      · exact hpc
      · exact absurd hop hnot
    · rw [effect.run, if_neg hop]

end Sys2Proof.Machine
end

section
/-! PROOFS. What an instruction does not read: the output, the stack but for POP's newest entry, and the legality table
but for its own entry (10_state.md sections 5 and 8; 20_memory.md section 4). -/

namespace Sys2Proof.Machine

/-- The same state with another stack, another output and another legality table. -/
def State.recast (stack out : List Word) (table : LegalModes) (s : State) : State :=
  { s with stack := stack, out := out, par := { s.par with legal := table } }

section
variable (stack out : List Word) (table : LegalModes) (s : State)

theorem placeOf_recast (m : Mode) (k : Word) : placeOf m k (s.recast stack out table) = placeOf m k s := by
  cases m <;> rfl

theorem Place.read_recast (p : Place) : p.read (s.recast stack out table) = p.read s := by
  cases p <;> rfl

theorem Place.writeBack_recast (p : Place) (v : Word) :
    p.writeBack v (s.recast stack out table) = (p.writeBack v s).recast stack out table := by
  cases p <;> rfl

theorem State.jumpIf_recast (taken : Bool) (k : Word) :
    (s.recast stack out table).jumpIf taken k = (s.jumpIf taken k).recast stack out table := by
  cases taken <;> rfl

theorem storeAndAdvance_recast {p : Place} {v : Word} {s t : State} (h : storeAndAdvance p v s = .next t) :
    storeAndAdvance p v (s.recast stack out table) = .next (t.recast stack out table) := by
  cases p <;> cases h <;> rfl

variable {stack out table s}

theorem State.recast_eq_stack (hout : s.out = out) (htable : s.par.legal = table) :
    s.recast stack out table = { s with stack := stack } := by
  subst hout htable
  rfl

theorem State.recast_eq_out (hstack : s.stack = stack) (htable : s.par.legal = table) :
    s.recast stack out table = { s with out := out } := by
  subst hstack htable
  rfl

theorem State.recast_eq_withLegal (hstack : s.stack = stack) (hout : s.out = out) :
    s.recast stack out table = s.withLegal table := by
  subst hstack hout
  rfl

end

/-- An executable instruction is its handler on the place its operand names. -/
theorem admitted_of_placeOf {i : Instr} {s : State} {p : Place} (he : Executable i s)
    (hp : placeOf i.mode i.operand s = some p) (handler : Place → Result) : admitted i s handler = handler p := by
  obtain ⟨q, hq, hhandler⟩ := admitted_of_executable he
  rw [hhandler, Option.some.inj (hq.symm.trans hp)]

/-- The checks read neither the stack nor the output, and of the table only the instruction's own entry. -/
theorem Executable.recast {i : Instr} {s : State} (he : Executable i s) {table : LegalModes}
    (hlegal : legalIn table i.opcode i.mode = s.legal i.opcode i.mode) (stack out : List Word) :
    Executable i (s.recast stack out table) :=
  ⟨hlegal.trans he.1, he.2⟩

/-- The place an executable READ stores to, and the Word it stores, when it answers a next state. -/
theorem exec_read_next {m : Mode} {k : Word} {s t : State} (he : Executable (.read m k) s)
    (h : exec (.read m k) s = .next t) :
    ∃ p v, placeOf m k s = some p ∧ s.par.input.wordAt s.inpos = some v ∧
      storeAndAdvance p v { s with inpos := s.inpos + 1 } = .next t := by
  cases hinput : s.par.input.wordAt s.inpos with
  | none => cases (exec_read_exhausted he hinput).symm.trans h
  | some v =>
    obtain ⟨p, hp, hread⟩ := exec_read_wordAt he hinput
    exact ⟨p, v, hp, rfl, hread.symm.trans h⟩

/-- A check that turns an instruction away does so on another stack, another output and under another table with the
same entry; the check of POP alone reads the stack. -/
theorem exec_recast_of_faultGround {i : Instr} {s : State} {kind : FaultKind} {stack : List Word}
    (hempty : i.opcode = .pop → s.stack = [] → stack = []) (ground : faultGround i s kind) {table : LegalModes}
    (hlegal : legalIn table i.opcode i.mode = s.legal i.opcode i.mode) (out : List Word) :
    exec i (s.recast stack out table) = .next ((s.raise kind (encode i)).recast stack out table) := by
  cases kind with
  | illegalOpcode => exact ground.elim
  | illegalMode => exact exec_of_illegalMode (hlegal.trans ground)
  | unknownRegister =>
    obtain ⟨hl, hreg⟩ := ground
    exact exec_of_unknownRegister (hlegal.trans hl) hreg
  | stackUnderflow =>
    obtain ⟨he, hop, hstack⟩ := ground
    rw [Instr.eq_ofParts hop] at he hlegal ⊢
    exact exec_pop_empty (he.recast hlegal stack out) (hempty hop hstack)

/-- An instruction other than PUSH, POP and PRINT does the same on another stack, another output and under another table
with the same entry for it. -/
theorem exec_recast_unchanged {i : Instr} {s t : State} (hop : i.opcode ∉ [.push, .pop, .print]) {table : LegalModes}
    (hlegal : legalIn table i.opcode i.mode = s.legal i.opcode i.mode) (stack out : List Word)
    (h : exec i s = .next t) : exec i (s.recast stack out table) = .next (t.recast stack out table) := by
  obtain ⟨kind, ground, rfl⟩ | ⟨he, p, hp, -⟩ := exec_next h
  · exact exec_recast_of_faultGround (fun e => absurd (by simp [e]) hop) ground hlegal out
  · have before := admitted_of_placeOf he hp
    have after := admitted_of_placeOf (he.recast hlegal stack out) ((placeOf_recast ..).trans hp)
    cases i
    case push | pop | print => simp [Instr.opcode] at hop
    case store => exact (after _).trans (storeAndAdvance_recast _ _ _ ((before _).symm.trans h))
    case read =>
      obtain ⟨q, v, hq, hinput, hstore⟩ := exec_read_next he h
      obtain ⟨q', hq', hread⟩ := exec_read_wordAt (he.recast hlegal stack out) hinput
      rw [placeOf_recast, hq] at hq'
      cases hq'
      exact hread.trans (storeAndAdvance_recast stack out table hstore)
    case halt | nop | jmp =>
      cases (before _).symm.trans h
      exact after _
    all_goals
      cases (before _).symm.trans h
      refine (after _).trans ?_
      simp only [State.addInPlace, Place.read_recast, Place.writeBack_recast, State.jumpIf_recast]
      rfl

end Sys2Proof.Machine
end

section
/-! PROOFS. The stack and the streams (10_state.md section 5; 20_memory.md section 4; 44_system_io.md). -/

namespace Sys2Proof.Machine

/-- No instruction but PUSH and POP touches the stack. -/
theorem exec_stack {i : Instr} {s t : State} (h : exec i s = .next t) (hpush : i.opcode ≠ .push)
    (hpop : i.opcode ≠ .pop) : t.stack = s.stack := by
  obtain ⟨kind, -, rfl⟩ | ⟨-, p, -, effect⟩ := exec_next h
  · rfl
  · exact effect.stack hpush hpop

/-- No instruction but PRINT touches the output. -/
theorem exec_out {i : Instr} {s t : State} (h : exec i s = .next t) (hprint : i.opcode ≠ .print) : t.out = s.out := by
  obtain ⟨kind, -, rfl⟩ | ⟨-, p, -, effect⟩ := exec_next h
  · rfl
  · simpa [hprint] using effect.out

/-- An instruction other than POP does the same on another stack, another output and under another table with the same
entry for it: it only appends to the two lists. -/
theorem exec_recast {i : Instr} {s t : State} (hpop : i.opcode ≠ .pop) (h : exec i s = .next t) :
    ∃ pushed printed, t.stack = s.stack ++ pushed ∧ t.out = s.out ++ printed ∧
      ∀ stack out table, legalIn table i.opcode i.mode = s.legal i.opcode i.mode →
        exec i (s.recast stack out table) = .next (t.recast (stack ++ pushed) (out ++ printed) table) := by
  obtain ⟨kind, ground, rfl⟩ | ⟨he, p, hp, -⟩ := exec_next h
  · refine ⟨[], [], by simp, by simp, fun stack out table hlegal => ?_⟩
    simpa using exec_recast_of_faultGround (fun e => absurd e hpop) ground hlegal out
  · have before := admitted_of_placeOf he hp
    have after (stack out table) (hlegal : legalIn table i.opcode i.mode = s.legal i.opcode i.mode) :=
      admitted_of_placeOf (he.recast hlegal stack out) ((placeOf_recast ..).trans hp)
    cases i
    case push =>
      cases (before _).symm.trans h
      refine ⟨[p.read s], [], rfl, by simp, fun stack out table hlegal => (after _ _ _ hlegal _).trans ?_⟩
      rw [Place.read_recast, List.append_nil]
      rfl
    case print =>
      cases (before _).symm.trans h
      refine ⟨[], [p.read s], by simp, rfl, fun stack out table hlegal => (after _ _ _ hlegal _).trans ?_⟩
      rw [Place.read_recast, List.append_nil]
      rfl
    case pop => exact absurd rfl hpop
    all_goals
      refine ⟨[], [], ?_, ?_, fun stack out table hlegal => ?_⟩
      · rw [exec_stack h (by simp [Instr.opcode]) hpop, List.append_nil]
      · rw [exec_out h (by simp [Instr.opcode]), List.append_nil]
      · simpa using exec_recast_unchanged (by simp [Instr.opcode]) hlegal stack out h

/-- What a storing instruction leaves alone, and what it stored. -/
theorem storeAndAdvance_next {p : Place} {v : Word} {s t : State} (h : storeAndAdvance p v s = .next t) :
    t.stack = s.stack ∧ p.read t = v ∧ ∀ r, p ≠ .register r → t.reg r = s.reg r := by
  cases p with
  | immediate k => cases h
  | register r =>
    cases h
    exact ⟨rfl, s.reg_setReg_same r v, fun other hother => s.reg_setReg_other v fun e => hother (e ▸ rfl)⟩
  | cell addr =>
    cases h
    exact ⟨rfl, s.memRead_memWrite_same addr v, fun _ _ => rfl⟩

/-- POP takes the newest entry from the stack and delivers it where its operand names. -/
theorem exec_pop_next {m : Mode} {k : Word} {s t : State} (he : Executable (.pop m k) s) {rest : List Word} {v : Word}
    (hstack : s.stack = rest ++ [v]) (h : exec (.pop m k) s = .next t) :
    t.stack = rest ∧ resolveValue m k t = some v := by
  obtain ⟨p, hp, hpop⟩ := exec_pop_concat he hstack
  obtain ⟨hrest, hread, hregs⟩ := storeAndAdvance_next (hpop.symm.trans h)
  exact ⟨hrest, by rw [resolveValue_of_placeOf (placeOf_congr hp hregs), hread]⟩

/-- POP does the same on another stack with the same newest entry, another output and under another table with the same
entry for it. -/
theorem exec_pop_recast {m : Mode} {k : Word} {s t : State} (he : Executable (.pop m k) s) {rest : List Word} {v : Word}
    (hstack : s.stack = rest ++ [v]) (h : exec (.pop m k) s = .next t) {table : LegalModes}
    (hlegal : legalIn table .pop m = s.legal .pop m) (other out : List Word) :
    exec (.pop m k) (s.recast (other ++ [v]) out table) = .next (t.recast other out table) := by
  obtain ⟨p, hp, hpop⟩ := exec_pop_concat he hstack
  obtain ⟨q, hq, hother⟩ := exec_pop_concat (he.recast hlegal (other ++ [v]) out) rfl
  rw [placeOf_recast, hp] at hq
  cases hq
  exact hother.trans (storeAndAdvance_recast (s := { s with stack := rest }) other out table (hpop.symm.trans h))

/-- Every instruction does the same with another output and under another table with the same entry for it: it only
appends to the output. -/
theorem exec_recast_out {i : Instr} {s t : State} (h : exec i s = .next t) :
    ∃ printed, t.out = s.out ++ printed ∧ ∀ out table, legalIn table i.opcode i.mode = s.legal i.opcode i.mode →
      exec i (s.recast s.stack out table) = .next (t.recast t.stack (out ++ printed) table) := by
  by_cases hpop : i.opcode = .pop
  · refine ⟨[], by rw [exec_out h (by simp [hpop]), List.append_nil], fun out table hlegal => ?_⟩
    rw [List.append_nil]
    obtain ⟨kind, ground, rfl⟩ | ⟨he, -⟩ := exec_next h
    · exact exec_recast_of_faultGround (fun _ hstack => hstack) ground hlegal out
    · rw [Instr.eq_ofParts hpop] at he h hlegal ⊢
      obtain hstack | ⟨rest, v, hstack⟩ := List.eq_nil_or_concat' s.stack
      · cases (exec_pop_empty he hstack).symm.trans h
        exact exec_pop_empty (he.recast hlegal s.stack out) hstack
      · obtain ⟨hrest, -⟩ := exec_pop_next he hstack h
        rw [hstack, hrest]
        exact exec_pop_recast he hstack h hlegal rest out
  · obtain ⟨pushed, printed, hstack, hout, hexec⟩ := exec_recast hpop h
    exact ⟨printed, hout, fun out table hlegal => hstack ▸ hexec s.stack out table hlegal⟩

/-- A mode of an opcode's row in the default table is legal under it. -/
theorem State.legal_of_default {s : State} (htable : s.par.legal = defaultLegalModes) {op : Opcode} {m : Mode}
    (hm : m ∈ defaultModes op) : s.legal op m = true := by
  simpa [State.legal, htable, legalIn_default] using hm

/-- With the default table, PUSH of a literal appends it. -/
theorem exec_push_immediate {s : State} (htable : s.par.legal = defaultLegalModes) (v : Word) :
    exec (.push .immediate v) s = .next { s with stack := s.stack ++ [v], pc := s.pc + 1 } := by
  obtain ⟨w, hw, hpush⟩ :=
    pushAppendsTheOperand .immediate v s ⟨State.legal_of_default htable (mem_anyMode _), rfl⟩
  cases hw
  exact hpush

/-- With the default table, POP in mode 01 moves the newest entry to the register with the given id. -/
theorem exec_pop_register {s : State} (htable : s.par.legal = defaultLegalModes) {k v : Word} {rest : List Word}
    {r : Reg} (hr : regIndex k = some r) (hstack : s.stack = rest ++ [v]) :
    exec (.pop .register k) s = .next { s with stack := rest, regs := s.regs.set r v, pc := s.pc + 1 } := by
  have hp : placeOf .register k s = some (.register r) := placeOf_register s hr
  have hreg : (Instr.pop .register k).registerNamed = true := by
    rw [← placeOf_isSome _ s]
    exact Option.isSome_of_eq_some hp
  obtain ⟨p, hp', hpop⟩ := exec_pop_concat ⟨State.legal_of_default htable List.mem_cons_self, hreg⟩ hstack
  cases hp.symm.trans hp'
  exact hpop

/-- A list of instructions runs its first one and then the rest. -/
theorem execAll_cons {i : Instr} {rest : List Instr} {s t : State} (h : exec i s = .next t) :
    execAll (i :: rest) s = execAll rest t := by
  simp [execAll, h, nextState?]

/-- Three pushes and three pops leave the stack as it was and give the Words back, the last one first. -/
theorem execAll_push_pop {s : State} (htable : s.par.legal = defaultLegalModes) (v1 v2 v3 : Word) :
    execAll [.push .immediate v1, .push .immediate v2, .push .immediate v3,
        .pop .register 1, .pop .register 2, .pop .register 3] s =
      some { s with regs := { s.regs with a := v3, b := v2, c := v1 }, pc := s.pc + 6 } :=
  calc
    _ = execAll [.pop .register 1, .pop .register 2, .pop .register 3]
          { s with stack := s.stack ++ [v1] ++ [v2] ++ [v3], pc := s.pc + 3 } :=
      (execAll_cons (exec_push_immediate htable v1)).trans <|
        (execAll_cons (exec_push_immediate (by exact htable) v2)).trans
          (execAll_cons (exec_push_immediate (by exact htable) v3))
    _ = execAll [] { s with regs := { s.regs with a := v3, b := v2, c := v1 }, pc := s.pc + 6 } :=
      (execAll_cons (exec_pop_register (by exact htable) (r := .a) rfl rfl)).trans <|
        (execAll_cons (exec_pop_register (by exact htable) (r := .b) rfl rfl)).trans
          (execAll_cons (exec_pop_register (by exact htable) (r := .c) rfl rfl))

/-- Settles O45: PUSH appends, POP takes the last entry, and no instruction reads an older one. -/
theorem stackIsLastInFirstOut : Obligations.StackIsLastInFirstOut := by
  refine ⟨fun s v1 v2 v3 htable => execAll_push_pop htable v1 v2 v3,
    fun i s t h hpush hpop => exec_stack h hpush hpop, fun m k s he => ?_, fun m k s t he h hstack => ?_,
    fun m k s he hstack => ⟨_, exec_pop_empty he hstack, State.kind?_raise ..⟩, fun i s t other hpop h => ?_,
    fun m k s t rest other v he hstack h => ?_,
    fun m k s t addr h hplace => onlyTheDestinationCellChanges _ s t addr h fun _ => hplace⟩
  · obtain ⟨v, hv, hpush⟩ := pushAppendsTheOperand m k s he
    exact ⟨v, _, hv, hpush, rfl, rfl⟩
  · obtain ⟨rest, v, hrest⟩ := (List.eq_nil_or_concat' s.stack).resolve_left hstack
    obtain ⟨hstack, hread⟩ := exec_pop_next he hrest h
    exact ⟨v, by rw [hstack, hrest], fun _ => hread⟩
  · obtain ⟨pushed, printed, hstack, hout, hexec⟩ := exec_recast hpop h
    have hother := hexec other s.out s.par.legal rfl
    rw [State.recast_eq_stack rfl rfl, State.recast_eq_stack hout (by rw [exec_par h])] at hother
    exact ⟨pushed, hstack, hother⟩
  · have hother := exec_pop_recast he hstack h rfl other s.out
    have hout : t.out = s.out := exec_out h (by simp [Instr.opcode])
    rwa [State.recast_eq_stack rfl rfl, State.recast_eq_stack hout (by rw [exec_par h])] at hother

/-- Settles O46: an effect consumes a Word for READ alone and prints one for PRINT alone, and no instruction reads the
output. -/
theorem streamsMoveOnlyByReadAndPrint : Obligations.StreamsMoveOnlyByReadAndPrint := by
  refine ⟨fun i s t h hs => ?_, fun i s h => ?_, fun i s t other h => ?_⟩
  · obtain ⟨kind, -, rfl⟩ | ⟨-, p, hp, effect⟩ := exec_next h
    · simp [RunState.kind?]
    · have hnone := effect.kind?_none hs
      have hin := effect.input
      have hout := effect.out
      simp only [hnone, and_true, ne_eq, not_true_eq_false, or_false]
      refine ⟨?_, fun hop => ?_, fun hop => ?_, fun hop => ?_⟩
      · split at hin
        · next hop => rw [hin.1, if_pos hop]
        · next hop => rw [hin, if_neg hop, Nat.add_zero]
      · rw [if_pos hop] at hin
        obtain ⟨-, v, hv, hread⟩ := hin
        have hregs (r : Reg) (hr : p ≠ .register r) : t.reg r = s.reg r :=
          effect.regs r (fun _ => by simp [hop]) fun _ => hr
        exact ⟨v, hv, by rw [resolveValue_of_placeOf (placeOf_congr hp hregs), hread]⟩
      · rw [if_pos hop] at hout
        exact ⟨p.read s, resolveValue_of_placeOf hp, hout⟩
      · rwa [if_neg hop] at hout
  · obtain ⟨hf, -⟩ | ⟨-, hop, -⟩ := exec_fault h
    · cases hf
    · exact hop
  · obtain ⟨printed, hout, hexec⟩ := exec_recast_out h
    have hother := hexec other s.par.legal rfl
    rw [State.recast_eq_out rfl rfl, State.recast_eq_out rfl (by rw [exec_par h])] at hother
    exact ⟨printed, hout, hother⟩

end Sys2Proof.Machine
end

section
/-! PROOFS. The narrower legality table (93_implementation_defined.md G3). -/

namespace Sys2Proof.Machine

/-- A mode legal under the narrower table is legal under the default. -/
theorem legalIn_default_of_narrow {op : Opcode} {m : Mode} (h : legalIn narrowLegalModes op m = true) :
    legalIn defaultLegalModes op m = true := by
  revert h
  cases op <;> cases m <;> decide

/-- An instruction that does not fault does the same under a table that gives it the mode too. -/
theorem exec_withLegal {i : Instr} {s t : State} {table : LegalModes} (hlegal : legalIn table i.opcode i.mode = true)
    (h : exec i s = .next t) (ht : t.run.kind? = none) : exec i (s.withLegal table) = .next (t.withLegal table) := by
  obtain ⟨kind, -, rfl⟩ | ⟨he, -⟩ := exec_next h
  · cases ht
  · obtain ⟨printed, hout, hexec⟩ := exec_recast_out h
    have hother := hexec s.out table (hlegal.trans he.1.symm)
    rwa [State.recast_eq_withLegal rfl rfl, State.recast_eq_withLegal rfl hout] at hother

/-- A step that does not fault under the narrower table is the same step under the default. -/
theorem step_narrow_default {s t : State} (htable : s.par.legal = narrowLegalModes) (h : step s = .next t)
    (ht : t.run.kind? = none) :
    step (s.withLegal defaultLegalModes) = .next (t.withLegal defaultLegalModes) := by
  obtain ⟨w, hrun, hw, ⟨i, hdec, hexec⟩ | ⟨-, rfl⟩⟩ := step_next h
  · obtain ⟨kind, -, rfl⟩ | ⟨⟨hlegal, -⟩, -⟩ := exec_next hexec
    · cases ht
    · rw [State.legal, htable] at hlegal
      exact (step_of_decode (s := s.withLegal defaultLegalModes) hrun hw hdec).trans
        (exec_withLegal (legalIn_default_of_narrow hlegal) hexec ht)
  · cases ht

/-- A run whose last state is not FAULTED never was: a FAULTED state has no step. -/
theorem kind?_none_of_runsTo {n : Nat} {s t : State} (h : RunsTo s n t) (ht : t.run.kind? = none) :
    s.run.kind? = none := by
  cases n with
  | zero => rwa [runsTo_zero.mp h]
  | succ n =>
    obtain ⟨u, hstep, -⟩ := runsTo_succ.mp h
    obtain ⟨w, hrun, -⟩ := step_next hstep
    rw [hrun]
    rfl

/-- Settles O51: by induction on the length of the run, step by step. -/
theorem runUnderNarrowTableIsRunUnderDefault : Obligations.RunUnderNarrowTableIsRunUnderDefault := by
  intro n
  induction n with
  | zero =>
    intro s t _ h _
    rw [runsTo_zero.mp h]
    exact runsTo_zero.mpr rfl
  | succ n ih =>
    intro s t htable h ht
    obtain ⟨u, hstep, hrest⟩ := runsTo_succ.mp h
    have hu : u.par.legal = narrowLegalModes := by rw [step_par hstep, htable]
    exact runsTo_succ.mpr
      ⟨_, step_narrow_default htable hstep (kind?_none_of_runsTo hrest ht), ih u t hu hrest ht⟩

end Sys2Proof.Machine
end

section
/-! PROOFS. The toolchain's contract: assembled words, label addresses, the text form, and the runs of assembled programs
(30_encoding.md sections 3 and 4). -/

namespace Sys2Proof.Machine

/-- Every word of an assembled program is that of an instruction well formed under the table. -/
theorem assemble_ok {legal : LegalModes} {source : List (List Char)} {prog : List InstrWord}
    (h : assemble legal source = .ok prog) {w : InstrWord} (hw : w ∈ prog) :
    ∃ i, decode w = .ok i ∧ i.wfUnder legal = true := by
  unfold assemble at h
  split at h
  · obtain ⟨line, -, hline⟩ := pass2_ok h hw
    obtain ⟨i, rfl, hwf⟩ := assembleLine_ok hline
    exact ⟨i, decode_encode i, hwf⟩
  · cases h

/-- How many lines hold an instruction: those that are neither empty nor a label (30_encoding.md R62). -/
def instructionCount (lines : List (List Token)) : Nat :=
  (lines.filter fun l => !l.isEmpty && (labelOf l).isNone).length

theorem instructionCount_cons_empty {line : List Token} (h : line.isEmpty = true) (rest : List (List Token)) :
    instructionCount (line :: rest) = instructionCount rest := by
  simp [instructionCount, h]

theorem instructionCount_cons_label {line : List Token} {name : Token} (h : labelOf line = some name)
    (rest : List (List Token)) : instructionCount (line :: rest) = instructionCount rest := by
  simp [instructionCount, h]

theorem instructionCount_cons_instruction {line : List Token} (hempty : ¬line.isEmpty = true) (hlabel : labelOf line = none)
    (rest : List (List Token)) : instructionCount (line :: rest) = instructionCount rest + 1 := by
  simp [instructionCount, hempty, hlabel]

/-- Where pass 1 found a label: a line of the source, at the address of the counter there. -/
def LabelAt (addr : Nat) (lines : List (List Token)) (name : Token) (labelAddr : Nat) : Prop :=
  ∃ before line after, lines = before ++ line :: after ∧ labelOf line = some name ∧
    labelAddr = addr + 3 * instructionCount before

/-- A line put in front moves the labels behind it by 3 if it holds an instruction. -/
theorem LabelAt.cons {addr start : Nat} {line : List Token} {rest : List (List Token)} {name : Token} {labelAddr : Nat}
    (h : LabelAt start rest name labelAddr)
    (hstart : ∀ before, start + 3 * instructionCount before = addr + 3 * instructionCount (line :: before)) :
    LabelAt addr (line :: rest) name labelAddr := by
  obtain ⟨before, l, after, rfl, hlabel, rfl⟩ := h
  exact ⟨line :: before, l, after, rfl, hlabel, hstart before⟩

/-- Every label of pass 1 stands at a line of the source. -/
theorem pass1_ok {addr : Nat} {lines : List (List Token)} {labels : LabelTable} (h : pass1 addr lines = .ok labels)
    {name : Token} {labelAddr : Nat} (hmem : (name, labelAddr) ∈ labels) : LabelAt addr lines name labelAddr := by
  induction lines generalizing addr labels with
  | nil =>
    cases h
    cases hmem
  | cons line rest ih =>
    unfold pass1 at h
    split_ifs at h with hempty
    · exact (ih h hmem).cons fun before => by rw [instructionCount_cons_empty hempty]
    · split at h
      · next found hlabel =>
        split_ifs at h
        split at h
        · next later hlater =>
          split_ifs at h
          cases h
          obtain heq | hmem := List.mem_cons.mp hmem
          · cases heq
            exact ⟨[], line, rest, rfl, hlabel, rfl⟩
          · exact (ih hlater hmem).cons fun before => by rw [instructionCount_cons_label hlabel]
        · cases h
      · next hlabel =>
        refine (ih h hmem).cons fun before => ?_
        rw [instructionCount_cons_instruction hempty hlabel]
        omega

/-- A jump to three times an index lands on the index (43_control_transfer.md R140). -/
theorem jumpTarget_of_asWord {n : Nat} {k : Word} (h : asWord (3 * n) = some k) : jumpTarget k = n := by
  unfold asWord at h
  split_ifs at h with hn
  cases h
  rw [jumpTarget, BitVec.toNat_ofNat, Nat.mod_eq_of_lt hn]
  omega

/-- The digit of a value is read as the value. -/
theorem hexDigit_hexChar {n : Nat} (hn : n < 16) : hexDigit (hexChar n) = some n := by
  have digits : ∀ n : Fin 16, hexDigit (hexChar n) = some n.val := by decide
  exact digits ⟨n, hn⟩

theorem hexValueFrom_nil (read : Nat) : hexValueFrom read [] = some read := rfl

/-- Reading one digit more. -/
theorem hexValueFrom_hexChar {n : Nat} (hn : n < 16) (read : Nat) (rest : List Char) :
    hexValueFrom read (hexChar n :: rest) = hexValueFrom (read * 16 + n) rest := by
  rw [hexValueFrom, hexDigit_hexChar hn]

/-- The six digits of a word are read as the word. -/
theorem hexValue_lineOf (w : InstrWord) : hexValue (lineOf w) = some w.toNat := by
  have digit (n : Nat) : n % 16 < 16 := Nat.mod_lt n (by decide)
  have hw := w.isLt
  simp only [lineOf, List.map_cons, List.map_nil, hexValue, List.isEmpty_cons, Bool.false_eq_true, if_false,
    hexValueFrom_hexChar (digit _), hexValueFrom_nil, Option.some.injEq]
  omega

/-- A line of the text form loads as its word. -/
theorem loadLine_lineOf (w : InstrWord) : loadLine (lineOf w) = some w := by
  have hlength : (lineOf w).length = 6 := rfl
  rw [loadLine, if_pos hlength, hexValue_lineOf, Option.map_some, BitVec.ofNat_toNat, BitVec.setWidth_eq]

/-- The text form of a program loads as the program. -/
theorem loadProgram_map_lineOf (prog : List InstrWord) : loadProgram (prog.map lineOf) = some prog := by
  induction prog with
  | nil => rfl
  | cons w rest ih => simp only [List.map_cons, loadProgram, loadLine_lineOf, ih]

/-- An instruction well formed under the run's table is executable. -/
theorem Executable.of_wfUnder {i : Instr} {s : State} (h : i.wfUnder s.par.legal = true) : Executable i s := by
  simp only [Instr.wfUnder, Bool.and_eq_true] at h
  obtain ⟨⟨hmode, hreg⟩, -⟩ := h
  exact ⟨hmode, hreg⟩

/-- The one fault that an executable instruction can raise. -/
theorem Executable.faultGround {i : Instr} {s : State} {kind : FaultKind} (he : Executable i s)
    (ground : faultGround i s kind) : kind = .stackUnderflow := by
  obtain ⟨hlegal, hreg⟩ := he
  cases kind with
  | illegalOpcode => exact ground.elim
  | illegalMode => exact absurd (hlegal.symm.trans ground) (by decide)
  | unknownRegister => exact absurd (hreg.symm.trans ground.2) (by decide)
  | stackUnderflow => rfl

/-- A run that ends FAULTED entered the fault with its last step, from a state with the same parameters. -/
theorem step_of_runsTo_faulted {n : Nat} {s t : State} {kind : FaultKind} (h : RunsTo s n t) (hs : s.run.kind? = none)
    (ht : t.run.kind? = some kind) : ∃ u, u.par = s.par ∧ step u = .next t := by
  induction n generalizing s with
  | zero =>
    rw [runsTo_zero.mp h, ht] at hs
    cases hs
  | succ n ih =>
    obtain ⟨u, hstep, hrest⟩ := runsTo_succ.mp h
    cases hu : u.run.kind? with
    | none =>
      obtain ⟨last, hpar, hlast⟩ := ih hrest hu
      exact ⟨last, hpar.trans (step_par hstep), hlast⟩
    | some kind' =>
      cases n with
      | zero => exact ⟨s, rfl, runsTo_zero.mp hrest ▸ hstep⟩
      | succ n =>
        obtain ⟨v, hagain, -⟩ := runsTo_succ.mp hrest
        obtain ⟨w, hrun, -⟩ := step_next hagain
        rw [hrun] at hu
        cases hu

/-- A step in a program of well-formed instructions faults by StackUnderflow only. -/
theorem step_stackUnderflow {s t : State} {kind : FaultKind}
    (hprog : ∀ w ∈ s.par.prog, ∃ i, decode w = .ok i ∧ i.wfUnder s.par.legal = true) (h : step s = .next t)
    (ht : t.run.kind? = some kind) : kind = .stackUnderflow := by
  obtain ⟨w, hrun, hw, hstep⟩ := step_next h
  obtain ⟨i, hdec, hwf⟩ := hprog w (List.mem_of_getElem? hw)
  obtain ⟨i', hdec', hexec⟩ | ⟨hdec', -⟩ := hstep
  · cases hdec.symm.trans hdec'
    exact (Executable.of_wfUnder hwf).faultGround (faultGround_of_exec (by rw [hrun]; rfl) hexec ht)
  · cases hdec.symm.trans hdec'

/-- Settles O52: every word of pass 2 is that of an instruction line. -/
theorem assembledWordsAreWellFormedInstructions : Obligations.AssembledWordsAreWellFormedInstructions :=
  fun _ _ _ h _ hw => assemble_ok h hw

/-- Settles O53: by induction on the lines, from any start of the address counter. -/
theorem labelAddressIsThreeTimesTheIndex : Obligations.LabelAddressIsThreeTimesTheIndex := by
  intro lines labels h name addr hmem
  obtain ⟨before, line, after, hlines, hlabel, haddr⟩ := pass1_ok h hmem
  rw [Nat.zero_add] at haddr
  exact ⟨before, line, after, hlines, hlabel, haddr, fun k hk => jumpTarget_of_asWord (haddr ▸ hk)⟩

/-- Settles O54: line by line, and a line digit by digit. -/
theorem textFormLoadsBack : Obligations.TextFormLoadsBack := loadProgram_map_lineOf

/-- Settles O55: every word fetched is that of a well-formed instruction, and the last step of the run entered the fault. -/
theorem assembledProgramFaultsOnlyByStackUnderflow : Obligations.AssembledProgramFaultsOnlyByStackUnderflow := by
  intro legal source prog input n t hasm hrun kind hkind
  obtain ⟨u, hpar, hstep⟩ := step_of_runsTo_faulted hrun rfl hkind
  refine step_stackUnderflow (fun w hw => ?_) hstep hkind
  rw [hpar] at hw ⊢
  exact assemble_ok hasm hw

end Sys2Proof.Machine
end
